-- ==== Sys2Proof/Word.lean ====
section
/-! DEFINITION. The word types of the rgbunit MMU (00_scope.md R9, R10): a data byte, a CPU address and the 25-bit
transaction word of 30_encoding.md R80. -/

namespace Sys2Proof

/-- One byte: the data width of every access (R55). -/
abbrev Byte := BitVec 8

/-- A 16-bit CPU address (R50). -/
abbrev Addr := BitVec 16

/-- The 25-bit transaction word `T` (R80). -/
abbrev BusWord := BitVec 25

end Sys2Proof
end

