-- ==== Sys2Proof/Config.lean ====
section
/-! DEFINITION. The configuration record `CFG` (00_scope.md R5, R6): what LOAD fixes for the life of a machine, the fill
byte, the name of a handler, and the one free value of the model (what a device answers, 42_mmio_table.md R200). -/

namespace Sys2Proof

/-- The controller variant (R168): `NONE`, the no-banking variant, or `BANKED`, the one banking variant. -/
inductive Variant where
  | none
  | banked
deriving DecidableEq, Repr

/-- The scalar part of `CFG` (R5). The rest of `CFG` (ROM contents, initial RAM contents, the handler table) is held
by the state fields it initialises. -/
structure Cfg where
  /-- `VARIANT`. -/
  variant : Variant
  /-- `ROM_BANKS`, at least 1 in every machine LOAD makes (R215); the invariant `State.Inv` says so. -/
  romBanks : Nat
  /-- `RAM_BANKS`, 0 when the cartridge has no RAM (R25). -/
  ramBanks : Nat
deriving DecidableEq, Repr

/-- `FILL` (R6): the byte a read returns when no cell and no handler answers. -/
def fillByte : Byte := 0xFF

/-- A handler (R197): a pair of capabilities supplied from outside, here the number that names the pair (R8 "handler
id"). What the pair does is outside the block; see `Config.handlerByte`. -/
structure Handler where
  /-- The number that tells one registered pair from another. -/
  id : Nat
deriving DecidableEq, Repr

/-- FREE VALUE (R200, decision D23): the byte a handler's read effect returns. `draw` is the number of read effects
called before this one, so two calls share no answer, and the effect receives no address (R197 b). No value of it can
be proved: notes/assumptions/4.md. -/
opaque Config.handlerByte (draw : Nat) (handler : Nat) : Byte

end Sys2Proof
end

