-- ==== Sys2Proof/Syntax.lean ====
section
/-! DEFINITION. The instruction type: the 21 bus transactions of spec/opcode_table.json (30_encoding.md R83, R86), and
the names the decoder speaks in (intents, the nine regions of R87, the decoder's refusals). -/

namespace Sys2Proof

/-- The `intent` input (R8): Read or Write. -/
inductive Intent where
  | read
  | write
deriving DecidableEq, Repr

/-- The nine regions (20_memory.md R52, 30_encoding.md R87), in address order. -/
inductive Region where
  | rom0 | romx | vram | cram | wram | echo | oam | unus | mmio
deriving DecidableEq, Repr

/-- One bus transaction. A READ carries its address only: its `data` field is ignored (R82). A WRITE carries the
address and the data byte, also where the operation ignores the byte (R88). -/
inductive Instr where
  /-- RD.ROM0 (R156) -/
  | rdRom0 (addr : Addr)
  /-- RD.ROMX (R157) -/
  | rdRomx (addr : Addr)
  /-- RD.VRAM (R116) -/
  | rdVram (addr : Addr)
  /-- RD.CRAM (R163) -/
  | rdCram (addr : Addr)
  /-- RD.WRAM (R118) -/
  | rdWram (addr : Addr)
  /-- RD.ECHO (R120) -/
  | rdEcho (addr : Addr)
  /-- RD.OAM (R122) -/
  | rdOam (addr : Addr)
  /-- RD.UNUS (R124) -/
  | rdUnus (addr : Addr)
  /-- RD.MMIO (R195) -/
  | rdMmio (addr : Addr)
  /-- WR.RAMG (R158) -/
  | wrRamg (addr : Addr) (wdata : Byte)
  /-- WR.ROMB0 (R159) -/
  | wrRomb0 (addr : Addr) (wdata : Byte)
  /-- WR.ROMB1 (R160) -/
  | wrRomb1 (addr : Addr) (wdata : Byte)
  /-- WR.RAMB (R161) -/
  | wrRamb (addr : Addr) (wdata : Byte)
  /-- WR.RSV6 (R162) -/
  | wrRsv6 (addr : Addr) (wdata : Byte)
  /-- WR.VRAM (R117) -/
  | wrVram (addr : Addr) (wdata : Byte)
  /-- WR.CRAM (R164) -/
  | wrCram (addr : Addr) (wdata : Byte)
  /-- WR.WRAM (R119) -/
  | wrWram (addr : Addr) (wdata : Byte)
  /-- WR.ECHO (R121) -/
  | wrEcho (addr : Addr) (wdata : Byte)
  /-- WR.OAM (R123) -/
  | wrOam (addr : Addr) (wdata : Byte)
  /-- WR.UNUS (R125) -/
  | wrUnus (addr : Addr) (wdata : Byte)
  /-- WR.MMIO (R196) -/
  | wrMmio (addr : Addr) (wdata : Byte)
deriving DecidableEq, Repr

/-- Why a number is not decoded. No 25-bit word is ever refused (R89). -/
inductive DecodeError where
  /-- The number has a bit above bit 24, so it is no transaction word (R80: one length, 25 bits). -/
  | wordTooWide (word : Nat)
deriving DecidableEq, Repr

end Sys2Proof
end

