-- ==== Sys2Proof/WellFormed.lean ====
section
/-! DEFINITION. Well-formed instructions: each operation's address lies in the range that selects it (30_encoding.md
R83, R86). These are the only bounds an operand has: every data byte is legal (R89). -/

namespace Sys2Proof

/-- `lo <= addr <= hi`, both ends included (R9). -/
def inWindow (lo hi : Nat) (a : Addr) : Bool := decide (lo ≤ a.toNat) && decide (a.toNat ≤ hi)

/-- The address is one the operation is selected by. -/
def Instr.wf : Instr → Bool
  | .rdRom0 a => inWindow 0x0000 0x3FFF a
  | .rdRomx a => inWindow 0x4000 0x7FFF a
  | .rdVram a => inWindow 0x8000 0x9FFF a
  | .rdCram a => inWindow 0xA000 0xBFFF a
  | .rdWram a => inWindow 0xC000 0xDFFF a
  | .rdEcho a => inWindow 0xE000 0xFDFF a
  | .rdOam a => inWindow 0xFE00 0xFE9F a
  | .rdUnus a => inWindow 0xFEA0 0xFEFF a
  | .rdMmio a => inWindow 0xFF00 0xFFFF a
  | .wrRamg a _ => inWindow 0x0000 0x1FFF a
  | .wrRomb0 a _ => inWindow 0x2000 0x2FFF a
  | .wrRomb1 a _ => inWindow 0x3000 0x3FFF a
  | .wrRamb a _ => inWindow 0x4000 0x5FFF a
  | .wrRsv6 a _ => inWindow 0x6000 0x7FFF a
  | .wrVram a _ => inWindow 0x8000 0x9FFF a
  | .wrCram a _ => inWindow 0xA000 0xBFFF a
  | .wrWram a _ => inWindow 0xC000 0xDFFF a
  | .wrEcho a _ => inWindow 0xE000 0xFDFF a
  | .wrOam a _ => inWindow 0xFE00 0xFE9F a
  | .wrUnus a _ => inWindow 0xFEA0 0xFEFF a
  | .wrMmio a _ => inWindow 0xFF00 0xFFFF a

end Sys2Proof
end

