-- ==== Sys2Proof/Decode.lean ====
section
/-! DEFINITION. Decoding a transaction word (30_encoding.md R80 to R93, 40_address_decoder.md R110), the encoder written
from the same field table, the opcode table's 31 match/mask rows, and the listing syntax of R92. -/

namespace Sys2Proof

/-! ### The fields of the word (R80) -/

/-- Bit 24: 0 = Read, 1 = Write. -/
def intentField (w : BusWord) : Intent := if w.getLsbD 24 then .write else .read

/-- Bits 23:8. -/
def addrField (w : BusWord) : Addr := w.extractLsb' 8 16

/-- Bits 7:0. -/
def dataField (w : BusWord) : Byte := w.extractLsb' 0 8

/-- The numeric code of an intent (R8). -/
def Intent.code : Intent → Nat
  | .read => 0
  | .write => 1

/-- `T = intent * 0x1000000 + addr * 0x100 + data` (R80). -/
def packWord (intent : Intent) (addr : Addr) (data : Byte) : BusWord :=
  BitVec.ofNat 25 (intent.code * 0x1000000 + addr.toNat * 0x100 + data.toNat)

/-! ### Region decode (R110) -/

/-- `region(addr)`: a pure function of the address (R110). -/
def region (a : Addr) : Region :=
  if a.toNat ≤ 0x3FFF then .rom0
  else if a.toNat ≤ 0x7FFF then .romx
  else if a.toNat ≤ 0x9FFF then .vram
  else if a.toNat ≤ 0xBFFF then .cram
  else if a.toNat ≤ 0xDFFF then .wram
  else if a.toNat ≤ 0xFDFF then .echo
  else if a.toNat ≤ 0xFE9F then .oam
  else if a.toNat ≤ 0xFEFF then .unus
  else .mmio

/-- Region codes (R87, decision D3). -/
def Region.code : Region → Nat
  | .rom0 => 0
  | .romx => 1
  | .vram => 2
  | .cram => 3
  | .wram => 4
  | .echo => 5
  | .oam => 6
  | .unus => 7
  | .mmio => 8

/-! ### The operation map (R83, R86) -/

/-- READ operations: one per region (R83). -/
def decodeRead (a : Addr) : Instr :=
  match region a with
  | .rom0 => .rdRom0 a
  | .romx => .rdRomx a
  | .vram => .rdVram a
  | .cram => .rdCram a
  | .wram => .rdWram a
  | .echo => .rdEcho a
  | .oam => .rdOam a
  | .unus => .rdUnus a
  | .mmio => .rdMmio a

/-- WRITE operations: seven follow the regions, the two ROM regions split into the five bank-control sub-ranges (R86). -/
def decodeWrite (a : Addr) (d : Byte) : Instr :=
  match region a with
  | .rom0 => if a.toNat ≤ 0x1FFF then .wrRamg a d else if a.toNat ≤ 0x2FFF then .wrRomb0 a d else .wrRomb1 a d
  | .romx => if a.toNat ≤ 0x5FFF then .wrRamb a d else .wrRsv6 a d
  | .vram => .wrVram a d
  | .cram => .wrCram a d
  | .wram => .wrWram a d
  | .echo => .wrEcho a d
  | .oam => .wrOam a d
  | .unus => .wrUnus a d
  | .mmio => .wrMmio a d

/-- The operation of a transaction given by its three fields. The data byte never selects it (R81, R82). -/
def decodeAccess (intent : Intent) (a : Addr) (d : Byte) : Instr :=
  match intent with
  | .read => decodeRead a
  | .write => decodeWrite a d

/-- The operation of a transaction word: total, no word is illegal (R89). -/
def decodeWord (w : BusWord) : Instr := decodeAccess (intentField w) (addrField w) (dataField w)

/-- The decoder on any number: a number wider than 25 bits is refused by name. -/
def decode (word : Nat) : Except DecodeError Instr :=
  if word < 2 ^ 25 then .ok (decodeWord (BitVec.ofNat 25 word)) else .error (.wordTooWide word)

/-- The host's entry: bits are numbered as the opcode table numbers them, those at `nbits` and above are 0. -/
def decodeTableWord (nbits w : Nat) : Option Instr :=
  match decode (w % 2 ^ nbits) with
  | .ok i => some i
  | .error _ => none

/-! ### The encoder -/

/-- The `intent` of an operation. -/
def Instr.intent : Instr → Intent
  | .rdRom0 _ | .rdRomx _ | .rdVram _ | .rdCram _ | .rdWram _ | .rdEcho _ | .rdOam _ | .rdUnus _ | .rdMmio _ => .read
  | .wrRamg _ _ | .wrRomb0 _ _ | .wrRomb1 _ _ | .wrRamb _ _ | .wrRsv6 _ _ | .wrVram _ _ | .wrCram _ _ | .wrWram _ _
  | .wrEcho _ _ | .wrOam _ _ | .wrUnus _ _ | .wrMmio _ _ => .write

/-- The `addr` operand of an operation. -/
def Instr.addr : Instr → Addr
  | .rdRom0 a | .rdRomx a | .rdVram a | .rdCram a | .rdWram a | .rdEcho a | .rdOam a | .rdUnus a | .rdMmio a => a
  | .wrRamg a _ | .wrRomb0 a _ | .wrRomb1 a _ | .wrRamb a _ | .wrRsv6 a _ | .wrVram a _ | .wrCram a _ | .wrWram a _
  | .wrEcho a _ | .wrOam a _ | .wrUnus a _ | .wrMmio a _ => a

/-- The `data` field of an operation's word: the canonical 0x00 on a READ (R82). -/
def Instr.data : Instr → Byte
  | .rdRom0 _ | .rdRomx _ | .rdVram _ | .rdCram _ | .rdWram _ | .rdEcho _ | .rdOam _ | .rdUnus _ | .rdMmio _ => 0x00
  | .wrRamg _ d | .wrRomb0 _ d | .wrRomb1 _ d | .wrRamb _ d | .wrRsv6 _ d | .wrVram _ d | .wrCram _ d | .wrWram _ d
  | .wrEcho _ d | .wrOam _ d | .wrUnus _ d | .wrMmio _ d => d

/-- The word of an operation; on a READ the canonical word with `data = 0x00` (R80, R82). -/
def encode (i : Instr) : BusWord := packWord i.intent i.addr i.data

/-! ### The opcode table (R91, R93) -/

/-- The mnemonic of spec/opcode_table.json. -/
def Instr.mnemonic : Instr → String
  | .rdRom0 _ => "RD.ROM0"
  | .rdRomx _ => "RD.ROMX"
  | .rdVram _ => "RD.VRAM"
  | .rdCram _ => "RD.CRAM"
  | .rdWram _ => "RD.WRAM"
  | .rdEcho _ => "RD.ECHO"
  | .rdOam _ => "RD.OAM"
  | .rdUnus _ => "RD.UNUS"
  | .rdMmio _ => "RD.MMIO"
  | .wrRamg _ _ => "WR.RAMG"
  | .wrRomb0 _ _ => "WR.ROMB0"
  | .wrRomb1 _ _ => "WR.ROMB1"
  | .wrRamb _ _ => "WR.RAMB"
  | .wrRsv6 _ _ => "WR.RSV6"
  | .wrVram _ _ => "WR.VRAM"
  | .wrCram _ _ => "WR.CRAM"
  | .wrWram _ _ => "WR.WRAM"
  | .wrEcho _ _ => "WR.ECHO"
  | .wrOam _ _ => "WR.OAM"
  | .wrUnus _ _ => "WR.UNUS"
  | .wrMmio _ _ => "WR.MMIO"

/-- One row of the opcode table: a word `T` selects it when `T & mask = pattern` (R93). -/
structure OpcodeRow where
  mnemonic : String
  pattern : BusWord
  mask : BusWord
deriving DecidableEq, Repr

/-- `T & mask = pattern` (R93). -/
def OpcodeRow.selects (r : OpcodeRow) (w : BusWord) : Bool := (w &&& r.mask) == r.pattern

/-- The 14 rows of the nine READ operations (R91). -/
def readRows : List OpcodeRow :=
  [⟨"RD.ROM0", 0x0000000#25, 0x1C00000#25⟩, ⟨"RD.ROMX", 0x0400000#25, 0x1C00000#25⟩,
   ⟨"RD.VRAM", 0x0800000#25, 0x1E00000#25⟩, ⟨"RD.CRAM", 0x0A00000#25, 0x1E00000#25⟩,
   ⟨"RD.WRAM", 0x0C00000#25, 0x1E00000#25⟩, ⟨"RD.ECHO", 0x0E00000#25, 0x1F00000#25⟩,
   ⟨"RD.ECHO", 0x0F00000#25, 0x1F80000#25⟩, ⟨"RD.ECHO", 0x0F80000#25, 0x1FC0000#25⟩,
   ⟨"RD.ECHO", 0x0FC0000#25, 0x1FE0000#25⟩, ⟨"RD.OAM", 0x0FE0000#25, 0x1FF8000#25⟩,
   ⟨"RD.OAM", 0x0FE8000#25, 0x1FFE000#25⟩, ⟨"RD.UNUS", 0x0FEA000#25, 0x1FFE000#25⟩,
   ⟨"RD.UNUS", 0x0FEC000#25, 0x1FFC000#25⟩, ⟨"RD.MMIO", 0x0FF0000#25, 0x1FF0000#25⟩]

/-- The 17 rows of the twelve WRITE operations (R91). -/
def writeRows : List OpcodeRow :=
  [⟨"WR.RAMG", 0x1000000#25, 0x1E00000#25⟩, ⟨"WR.ROMB0", 0x1200000#25, 0x1F00000#25⟩,
   ⟨"WR.ROMB1", 0x1300000#25, 0x1F00000#25⟩, ⟨"WR.RAMB", 0x1400000#25, 0x1E00000#25⟩,
   ⟨"WR.RSV6", 0x1600000#25, 0x1E00000#25⟩, ⟨"WR.VRAM", 0x1800000#25, 0x1E00000#25⟩,
   ⟨"WR.CRAM", 0x1A00000#25, 0x1E00000#25⟩, ⟨"WR.WRAM", 0x1C00000#25, 0x1E00000#25⟩,
   ⟨"WR.ECHO", 0x1E00000#25, 0x1F00000#25⟩, ⟨"WR.ECHO", 0x1F00000#25, 0x1F80000#25⟩,
   ⟨"WR.ECHO", 0x1F80000#25, 0x1FC0000#25⟩, ⟨"WR.ECHO", 0x1FC0000#25, 0x1FE0000#25⟩,
   ⟨"WR.OAM", 0x1FE0000#25, 0x1FF8000#25⟩, ⟨"WR.OAM", 0x1FE8000#25, 0x1FFE000#25⟩,
   ⟨"WR.UNUS", 0x1FEA000#25, 0x1FFE000#25⟩, ⟨"WR.UNUS", 0x1FEC000#25, 0x1FFC000#25⟩,
   ⟨"WR.MMIO", 0x1FF0000#25, 0x1FF0000#25⟩]

/-- All 31 rows, in the table's order. -/
def opcodeRows : List OpcodeRow := readRows ++ writeRows

/-! ### Listing syntax (R92, decision D27) -/

/-- One hexadecimal digit, capital letters as the spec prints them. -/
def hexDigit (n : Nat) : Char :=
  if n < 10 then Char.ofNat (48 + n) else Char.ofNat (55 + n)

/-- The low `digits` hexadecimal digits of a number, most significant first. -/
def hexDigits : Nat → Nat → List Char
  | 0, _ => []
  | k + 1, n => hexDigits k (n / 16) ++ [hexDigit (n % 16)]

/-- `RD a` for a READ, `WR a, v` for a WRITE (R92). -/
def Instr.listing (i : Instr) : List Char :=
  match i.intent with
  | .read => ['R', 'D', ' '] ++ hexDigits 4 i.addr.toNat
  | .write => ['W', 'R', ' '] ++ hexDigits 4 i.addr.toNat ++ [',', ' '] ++ hexDigits 2 i.data.toNat

end Sys2Proof
end

