-- ==== Sys2Proof/Machine/State.lean ====
section
/-! DEFINITION. The state record (10_state.md R20), its reset value (R36), and the outcome types. Every field of R20 is
here under its own name; the last five fields are the model's own and hold the interface of 00_scope.md R8: the
transactions the master has issued, what the last one returned, and the two output traces. -/

namespace Sys2Proof.Machine

/-- A storage region or an initial content (R24 to R28): the listed cells, and the byte every unlisted offset holds.
Canonical form: `Memory.wf`. -/
structure Memory where
  /-- What an offset that is not listed reads as. -/
  fill : Byte
  /-- (offset, byte) pairs, offsets strictly rising, no byte equal to `fill`. -/
  cells : List Host.Cell
deriving DecidableEq, Repr

/-- The assembly latch (R30). -/
inductive Phase where
  | assembly
  | run
deriving DecidableEq, Repr

/-- The kinds of diagnostic event (R85). -/
inductive DiagKind where
  | echo
  | unusedOam
  | unmapped
deriving DecidableEq, Repr

/-- A diagnostic event `{address, kind}` (R85): the CPU address as issued. -/
structure DiagEvent where
  address : Addr
  kind : DiagKind
deriving DecidableEq, Repr

/-- One call of a handler's effect (R219): `(handler, Read)` or `(handler, Write, v)`. -/
inductive Dispatch where
  | read (handler : Handler)
  | write (handler : Handler) (value : Byte)
deriving DecidableEq, Repr

/-- The state of one rgbunit MMU and of its interface. -/
structure State where
  /-- `VARIANT`, `ROM_BANKS`, `RAM_BANKS` (R5): fixed by LOAD. -/
  cfg : Cfg
  /-- `rom_bank`, 9 bits (R21). -/
  romBank : BitVec 9
  /-- `ram_bank`, 4 bits (R22). -/
  ramBank : BitVec 4
  /-- `ram_enable`, the one flag (R23, R33). -/
  ramEnable : Bool
  /-- `ROM` (R24). -/
  rom : Memory
  /-- `SRAM`, cartridge RAM (R25). -/
  sram : Memory
  /-- `VRAM` (R26). -/
  vram : Memory
  /-- `WRAM`, all 0x8000 bytes (R27). -/
  wram : Memory
  /-- `OAM`, all 0x100 bytes (R28). -/
  oam : Memory
  /-- `HT` (R29): the addresses that have a handler, strictly rising; an address not listed is `none`. -/
  ht : List (Nat × Handler)
  /-- `phase` (R30); it latches when a transaction is answered (notes/assumptions/20.md). -/
  phase : Phase
  /-- MODEL'S OWN (notes/assumptions/1.md): the transaction words the master has issued and the block has not yet
  answered, oldest first. -/
  pending : List BusWord
  /-- MODEL'S OWN (notes/assumptions/3.md): the output `rdata` of the latest transaction, present only on a READ (R8). -/
  rdata : Option Byte
  /-- MODEL'S OWN (notes/assumptions/3.md): the handler effects called, in order (R199, R219). -/
  dispatches : List Dispatch
  /-- MODEL'S OWN (notes/assumptions/3.md): the diagnostic events emitted, in transaction order (R213). -/
  diags : List DiagEvent
  /-- MODEL'S OWN (notes/assumptions/4.md): read effects called so far; selects the next free answer. -/
  draws : Nat
deriving DecidableEq, Repr

/-- Faults: none. "No bus transaction raises anything" (R230), so the type has no constructor and no step can be a
fault. Safe or unsafe: neither, there is nothing to raise. -/
inductive Fault where
deriving DecidableEq, Repr

/-- Refusals. -/
inductive Refusal where
  /-- Raised only by an arm of `exec` for an instruction that has no meaning yet; no arm of this model raises it. Safe:
  a refusal proves nothing about the hardware. -/
  | notModelled (mnemonic : String)
deriving DecidableEq, Repr

/-- The initial contents `INIT_SRAM`, `INIT_VRAM`, `INIT_WRAM`, `INIT_OAM` (R5, decision D21): parameters, under no law. -/
structure InitContents where
  sram : Memory
  vram : Memory
  wram : Memory
  oam : Memory
deriving DecidableEq, Repr

/-- The machine right after a successful LOAD, for every configuration, ROM content and initial RAM content (R36). -/
def State.atReset (cfg : Cfg) (rom : Memory) (init : InitContents) : State where
  cfg := cfg
  romBank := 1
  ramBank := 0
  ramEnable := match cfg.variant with
    | .none => true
    | .banked => false
  rom := rom
  sram := init.sram
  vram := init.vram
  wram := init.wram
  oam := init.oam
  ht := []
  phase := .assembly
  pending := []
  rdata := none
  dispatches := []
  diags := []
  draws := 0

/-- DESIGN CHOICE (notes/assumptions/6.md, unsafe): the configuration of `State.reset`, the scalar part of the spec's
standard configuration CFG-A (95_test_vectors.md). `State.atReset` is the reset state of every configuration. -/
def Cfg.forReset : Cfg := { variant := .banked, romBanks := 4, ramBanks := 4 }

/-- DESIGN CHOICE (notes/assumptions/7.md, unsafe): the initial RAM contents of `State.reset`, every byte 0xEE as in
CFG-A; the spec fixes no value (decision D21). -/
def InitContents.forReset : InitContents where
  sram := ⟨0xEE, []⟩
  vram := ⟨0xEE, []⟩
  wram := ⟨0xEE, []⟩
  oam := ⟨0xEE, []⟩

/-- The machine right after reset (R36, R260), of a cartridge whose ROM is blank (every byte the pad byte 0xFF). -/
def State.reset : State := State.atReset Cfg.forReset ⟨fillByte, []⟩ InitContents.forReset

end Sys2Proof.Machine
end

