-- ==== Sys2Proof/Machine/Ops.lean ====
section
/-! DEFINITION. The named operations every meaning is written over: sparse lists in canonical form, one byte of a storage
region, the handler table, the parts of a transaction (43_facade.md R210, R211, R213), and fetching the next transaction.

There is no exception entry and no return to model: no trap exists (60_exceptions.md R230, R235, R236). -/

namespace Sys2Proof.Machine

/-! ### Sparse lists by key -/

variable {β : Type}

/-- The value listed at a key. -/
def sparseFind : List (Nat × β) → Nat → Option β
  | [], _ => none
  | (j, v) :: rest, k => if j = k then some v else sparseFind rest k

/-- Lists a value at a key, replacing one already there; keys stay strictly rising. -/
def sparseInsert : List (Nat × β) → Nat → β → List (Nat × β)
  | [], k, v => [(k, v)]
  | (j, w) :: rest, k, v =>
    if k < j then (k, v) :: (j, w) :: rest
    else if k = j then (k, v) :: rest
    else (j, w) :: sparseInsert rest k v

/-- Removes a key. -/
def sparseErase (l : List (Nat × β)) (k : Nat) : List (Nat × β) := l.filter (fun e => e.1 != k)

/-- The keys rise strictly. -/
abbrev sparseSorted (l : List (Nat × β)) : Prop := l.Pairwise (fun c d => c.1 < d.1)

/-! ### Storage regions -/

/-- What an unlisted offset of a region reads as. -/
def Memory.unlisted (m : Memory) : Byte := m.fill

/-- `REGION[o]` (R10). -/
def Memory.read (m : Memory) (o : Nat) : Byte := (sparseFind m.cells o).getD m.unlisted

/-- `REGION[o] <- v` (R10), in canonical form: storing the byte an unlisted offset reads as removes the entry. -/
def Memory.write (m : Memory) (o : Nat) (v : Byte) : Memory :=
  if v = m.unlisted then { m with cells := sparseErase m.cells o }
  else { m with cells := sparseInsert m.cells o v }

/-- The canonical form: offsets strictly rising, no entry equal to what an unlisted offset reads as. -/
abbrev Memory.wf (m : Memory) : Prop := sparseSorted m.cells ∧ ∀ c ∈ m.cells, c.2 ≠ m.unlisted

/-- Every listed offset is below the region's size. -/
abbrev Memory.within (m : Memory) (size : Nat) : Prop := ∀ c ∈ m.cells, c.1 < size

/-- The listed cells of a byte string placed at `base`: every byte that is not `fill`. -/
def cellsOf (fill : Byte) : Nat → List Byte → List Host.Cell
  | _, [] => []
  | base, b :: rest => if b = fill then cellsOf fill (base + 1) rest else (base, b) :: cellsOf fill (base + 1) rest

/-- A region that holds a byte string from offset 0 and `fill` after it. -/
def Memory.ofBytes (fill : Byte) (bytes : List Byte) : Memory := { fill := fill, cells := cellsOf fill 0 bytes }

/-! ### The handler table -/

/-- `HT[a]` (R10, R29). -/
def State.handlerAt (s : State) (a : Addr) : Option Handler := sparseFind s.ht a.toNat

/-! ### The parts of a transaction -/

/-- The start of every transaction: `phase <- RUN` (R30, R210, R211); `rdata` is absent until a READ answers (R8). -/
def State.start (s : State) : State := { s with phase := .run, rdata := none }

/-- `rdata <- b`. -/
def State.answer (b : Byte) (s : State) : State := { s with rdata := some b }

/-- `emit Diag(a, k)` (R10): the event goes to the end of the trace. -/
def State.emit (a : Addr) (k : DiagKind) (s : State) : State := { s with diags := s.diags ++ [⟨a, k⟩] }

/-- `rdata <- h.read()` (R193, R200): the effect is called once and its byte, a free value, is passed on unchanged. -/
def State.callRead (h : Handler) (s : State) : State :=
  { s with
    rdata := some (Config.handlerByte s.draws h.id)
    draws := s.draws + 1
    dispatches := s.dispatches ++ [.read h] }

/-- `h.write(v)` (R194): the effect is called once with the byte. -/
def State.callWrite (h : Handler) (v : Byte) (s : State) : State := { s with dispatches := s.dispatches ++ [.write h v] }

/-- `VRAM[o] <- v`. -/
def State.storeVram (o : Nat) (v : Byte) (s : State) : State := { s with vram := s.vram.write o v }

/-- `WRAM[o] <- v`. -/
def State.storeWram (o : Nat) (v : Byte) (s : State) : State := { s with wram := s.wram.write o v }

/-- `OAM[o] <- v`. -/
def State.storeOam (o : Nat) (v : Byte) (s : State) : State := { s with oam := s.oam.write o v }

/-- `SRAM[o] <- v`. -/
def State.storeSram (o : Nat) (v : Byte) (s : State) : State := { s with sram := s.sram.write o v }

/-! ### Sizes (R5, R24 to R28) -/

/-- `ROM_BANKS * 0x4000` (R24). -/
def romSizeOf (c : Cfg) : Nat := c.romBanks * 0x4000

/-- `RAM_BANKS * 0x2000` (R25). -/
def sramSizeOf (c : Cfg) : Nat := c.ramBanks * 0x2000

/-- One fixed 0x2000-byte region (R26). -/
def vramSize : Nat := 0x2000

/-- One fixed 0x8000-byte region (R27). -/
def wramSize : Nat := 0x8000

/-- One fixed 0x100-byte region (R28). -/
def oamSize : Nat := 0x100

/-! ### The master's stream -/

/-- Takes the oldest issued transaction (R59: in the order the master issued them); `none` when there is none. -/
def State.fetch (s : State) : Option (BusWord × State) :=
  match s.pending with
  | [] => none
  | w :: rest => some (w, { s with pending := rest })

/-- The master issues a transaction: it is taken after those issued before it (R32, R59). Issuing alone leaves `phase`
as it is: DESIGN CHOICE, notes/assumptions/20.md, since the spec's transaction is issued and answered in one step. -/
def State.issue (w : BusWord) (s : State) : State := { s with pending := s.pending ++ [w] }

end Sys2Proof.Machine
end

