-- ==== Sys2Proof/Machine/Flags.lean ====
section
/-! DEFINITION. The block's one flag, `ram_enable` (10_state.md R23, R33): how WR.RAMG computes it, and the gate that reads
it. There are no condition codes. -/

namespace Sys2Proof.Machine

/-- The byte that sets `ram_enable` (R158, decision D6). -/
def ramgSet : Byte := 0x0A

/-- The byte that clears `ram_enable` (R158, decision D6). -/
def ramgClear : Byte := 0x00

/-- The latch after a write of `v` to the enable-control range: set, cleared, or as it was (R23, R158). -/
def ramGate (v : Byte) (flag : Bool) : Bool :=
  if v = ramgSet then true else if v = ramgClear then false else flag

/-- `accessible = (ram_enable = 1) and (RAM_BANKS > 0)` (R155). -/
def State.accessible (s : State) : Bool := s.ramEnable && decide (0 < s.cfg.ramBanks)

end Sys2Proof.Machine
end

