-- ==== Sys2Proof/Machine/Operands.lean ====
section
/-! DEFINITION. Operand assembly (30_encoding.md R88): the offsets a transaction's address gives, and the fields a
bank-control write takes from its data byte. -/

namespace Sys2Proof.Machine

/-- Offset in the switchable ROM bank: `addr - 0x4000` (R151). -/
def romxOffset (a : Addr) : Nat := a.toNat - 0x4000

/-- `VRAM` offset: `addr - 0x8000`. -/
def vramOffset (a : Addr) : Nat := a.toNat - 0x8000

/-- Offset in the cartridge-RAM bank: `addr - 0xA000`. -/
def cramOffset (a : Addr) : Nat := a.toNat - 0xA000

/-- `WRAM` offset through the primary range: `addr - 0xC000`. -/
def wramOffset (a : Addr) : Nat := a.toNat - 0xC000

/-- `WRAM` offset through the echo range: `addr - 0xE000`, the cell of CPU address `addr - 0x2000`. -/
def echoOffset (a : Addr) : Nat := a.toNat - 0xE000

/-- `OAM` offset: `addr - 0xFE00`. -/
def oamOffset (a : Addr) : Nat := a.toNat - 0xFE00

/-- Handler index: `addr[7:0]` (R50, R88); the table itself is indexed by the full address. -/
def handlerIndex (a : Addr) : BitVec 8 := a.extractLsb' 0 8

/-- WR.ROMB0: `rom_bank[7:0] <- data[7:0]`, `rom_bank[8]` unchanged (R159). -/
def withLowByte (bank : BitVec 9) (d : Byte) : BitVec 9 := BitVec.ofBool (bank.getLsbD 8) ++ d

/-- WR.ROMB1: `rom_bank[8] <- data[0]`, `rom_bank[7:0]` unchanged, `data[7:1]` ignored (R160). -/
def withNinthBit (bank : BitVec 9) (d : Byte) : BitVec 9 := BitVec.ofBool (d.getLsbD 0) ++ bank.extractLsb' 0 8

/-- WR.RAMB: `data[3:0]`, `data[7:4]` ignored (R161). -/
def ramBankOperand (d : Byte) : BitVec 4 := d.extractLsb' 0 4

end Sys2Proof.Machine
end

