-- ==== Sys2Proof/Machine/BankController.lean ====
section
/-! DEFINITION. The bank controller / address translator (41_bank_controller.md R150 to R168) and the nine cartridge
operations. -/

namespace Sys2Proof.Machine

/-! ### Translation -/

/-- `translate_rom(addr)` (R151): the low half is bank 0, the high half bank `rom_bank mod ROM_BANKS`. -/
def State.translateRom (s : State) (a : Addr) : Nat :=
  if a.toNat ≤ 0x3FFF then a.toNat
  else (s.romBank.toNat % s.cfg.romBanks) * 0x4000 + romxOffset a

/-- `translate_ram(addr)` (R152); the gate `State.accessible` keeps it from being used when `RAM_BANKS = 0`. -/
def State.translateRam (s : State) (a : Addr) : Nat :=
  (s.ramBank.toNat % s.cfg.ramBanks) * 0x2000 + cramOffset a

/-! ### Bank-control registers -/

/-- WR.RAMG's effect on the latch; nothing in variant `NONE` (R158, R165). -/
def State.writeRamGate (v : Byte) (s : State) : State :=
  match s.cfg.variant with
  | .none => s
  | .banked => { s with ramEnable := ramGate v s.ramEnable }

/-- WR.ROMB0's effect on `rom_bank`; nothing in variant `NONE` (R159, R165). -/
def State.writeRomBankLow (v : Byte) (s : State) : State :=
  match s.cfg.variant with
  | .none => s
  | .banked => { s with romBank := withLowByte s.romBank v }

/-- WR.ROMB1's effect on `rom_bank`; nothing in variant `NONE` (R160, R165). -/
def State.writeRomBankHigh (v : Byte) (s : State) : State :=
  match s.cfg.variant with
  | .none => s
  | .banked => { s with romBank := withNinthBit s.romBank v }

/-- WR.RAMB's effect on `ram_bank`; nothing in variant `NONE` (R161, R165). -/
def State.writeRamBank (v : Byte) (s : State) : State :=
  match s.cfg.variant with
  | .none => s
  | .banked => { s with ramBank := ramBankOperand v }

/-- `on_bank_control_write(addr, value)` (R154), for `addr` in 0x0000 to 0x7FFF. -/
def State.onBankControlWrite (a : Addr) (v : Byte) (s : State) : State :=
  if a.toNat ≤ 0x1FFF then s.writeRamGate v
  else if a.toNat ≤ 0x2FFF then s.writeRomBankLow v
  else if a.toNat ≤ 0x3FFF then s.writeRomBankHigh v
  else if a.toNat ≤ 0x5FFF then s.writeRamBank v
  else s

/-! ### The cartridge operations -/

/-- RD.ROM0 (R156). -/
def execRdRom0 (a : Addr) (s : State) : Host.Outcome State Fault Refusal :=
  .next (s.start.answer (s.rom.read a.toNat))

/-- RD.ROMX (R157). -/
def execRdRomx (a : Addr) (s : State) : Host.Outcome State Fault Refusal :=
  .next (s.start.answer (s.rom.read ((s.romBank.toNat % s.cfg.romBanks) * 0x4000 + romxOffset a)))

/-- RD.CRAM (R163): the fill byte while not accessible, and no event in either case. -/
def execRdCram (a : Addr) (s : State) : Host.Outcome State Fault Refusal :=
  .next (s.start.answer (if s.accessible then s.sram.read (s.translateRam a) else fillByte))

/-- WR.RAMG (R158): the low address bits are not examined. -/
def execWrRamg (_a : Addr) (v : Byte) (s : State) : Host.Outcome State Fault Refusal :=
  .next (s.start.writeRamGate v)

/-- WR.ROMB0 (R159): the low address bits are not examined. -/
def execWrRomb0 (_a : Addr) (v : Byte) (s : State) : Host.Outcome State Fault Refusal :=
  .next (s.start.writeRomBankLow v)

/-- WR.ROMB1 (R160): the low address bits are not examined. -/
def execWrRomb1 (_a : Addr) (v : Byte) (s : State) : Host.Outcome State Fault Refusal :=
  .next (s.start.writeRomBankHigh v)

/-- WR.RAMB (R161): the low address bits are not examined. -/
def execWrRamb (_a : Addr) (v : Byte) (s : State) : Host.Outcome State Fault Refusal :=
  .next (s.start.writeRamBank v)

/-- WR.RSV6 (R162): dropped, in both variants. -/
def execWrRsv6 (_a : Addr) (_v : Byte) (s : State) : Host.Outcome State Fault Refusal :=
  .next s.start

/-- WR.CRAM (R164): stored while accessible, else dropped without an event. -/
def execWrCram (a : Addr) (v : Byte) (s : State) : Host.Outcome State Fault Refusal :=
  .next (if s.accessible then s.start.storeSram (s.translateRam a) v else s.start)

end Sys2Proof.Machine
end

