-- ==== Sys2Proof/Machine/InternalMemory.lean ====
section
/-! DEFINITION. The ten operations the decoder resolves into a storage region by itself (40_address_decoder.md R116 to
R125). -/

namespace Sys2Proof.Machine

/-- RD.VRAM (R116): never locked (R268). -/
def execRdVram (a : Addr) (s : State) : Host.Outcome State Fault Refusal :=
  .next (s.start.answer (s.vram.read (vramOffset a)))

/-- WR.VRAM (R117). -/
def execWrVram (a : Addr) (v : Byte) (s : State) : Host.Outcome State Fault Refusal :=
  .next (s.start.storeVram (vramOffset a) v)

/-- RD.WRAM (R118). -/
def execRdWram (a : Addr) (s : State) : Host.Outcome State Fault Refusal :=
  .next (s.start.answer (s.wram.read (wramOffset a)))

/-- WR.WRAM (R119). -/
def execWrWram (a : Addr) (v : Byte) (s : State) : Host.Outcome State Fault Refusal :=
  .next (s.start.storeWram (wramOffset a) v)

/-- RD.ECHO (R120): the cell of CPU address `addr - 0x2000`, and one `ECHO` event. -/
def execRdEcho (a : Addr) (s : State) : Host.Outcome State Fault Refusal :=
  .next ((s.start.answer (s.wram.read (echoOffset a))).emit a .echo)

/-- WR.ECHO (R121): stores in full, and one `ECHO` event. -/
def execWrEcho (a : Addr) (v : Byte) (s : State) : Host.Outcome State Fault Refusal :=
  .next ((s.start.storeWram (echoOffset a) v).emit a .echo)

/-- RD.OAM (R122). -/
def execRdOam (a : Addr) (s : State) : Host.Outcome State Fault Refusal :=
  .next (s.start.answer (s.oam.read (oamOffset a)))

/-- WR.OAM (R123). -/
def execWrOam (a : Addr) (v : Byte) (s : State) : Host.Outcome State Fault Refusal :=
  .next (s.start.storeOam (oamOffset a) v)

/-- RD.UNUS (R124): `FILL`, and one `UNUSED_OAM` event; `OAM[0xA0..0xFF]` is not consulted (90_conflicts.md C1). -/
def execRdUnus (a : Addr) (s : State) : Host.Outcome State Fault Refusal :=
  .next ((s.start.answer fillByte).emit a .unusedOam)

/-- WR.UNUS (R125): dropped, and one `UNUSED_OAM` event. -/
def execWrUnus (a : Addr) (_v : Byte) (s : State) : Host.Outcome State Fault Refusal :=
  .next (s.start.emit a .unusedOam)

end Sys2Proof.Machine
end

