-- ==== Sys2Proof/Machine/Mmio.lean ====
section
/-! DEFINITION. The MMIO register table's two bus operations (42_mmio_table.md R193 to R196). -/

namespace Sys2Proof.Machine

/-- RD.MMIO (R195): the handler's read effect once, or `FILL` and one `UNMAPPED` event. -/
def execRdMmio (a : Addr) (s : State) : Host.Outcome State Fault Refusal :=
  match s.handlerAt a with
  | some h => .next (s.start.callRead h)
  | none => .next ((s.start.answer fillByte).emit a .unmapped)

/-- WR.MMIO (R196): the handler's write effect once, or a drop and one `UNMAPPED` event. -/
def execWrMmio (a : Addr) (v : Byte) (s : State) : Host.Outcome State Fault Refusal :=
  match s.handlerAt a with
  | some h => .next (s.start.callWrite h v)
  | none => .next (s.start.emit a .unmapped)

end Sys2Proof.Machine
end

