-- ==== Sys2Proof/Machine/Dispatch.lean ====
section
/-! DEFINITION. The dispatcher: one arm per operation of the opcode table, each one call of the operation's meaning. -/

namespace Sys2Proof.Machine

def exec (i : Instr) (s : State) : Host.Outcome State Fault Refusal :=
  match i with
  | .rdRom0 a => Sys2Proof.Machine.execRdRom0 a s
  | .rdRomx a => Sys2Proof.Machine.execRdRomx a s
  | .rdVram a => Sys2Proof.Machine.execRdVram a s
  | .rdCram a => Sys2Proof.Machine.execRdCram a s
  | .rdWram a => Sys2Proof.Machine.execRdWram a s
  | .rdEcho a => Sys2Proof.Machine.execRdEcho a s
  | .rdOam a => Sys2Proof.Machine.execRdOam a s
  | .rdUnus a => Sys2Proof.Machine.execRdUnus a s
  | .rdMmio a => Sys2Proof.Machine.execRdMmio a s
  | .wrRamg a d => Sys2Proof.Machine.execWrRamg a d s
  | .wrRomb0 a d => Sys2Proof.Machine.execWrRomb0 a d s
  | .wrRomb1 a d => Sys2Proof.Machine.execWrRomb1 a d s
  | .wrRamb a d => Sys2Proof.Machine.execWrRamb a d s
  | .wrRsv6 a d => Sys2Proof.Machine.execWrRsv6 a d s
  | .wrVram a d => Sys2Proof.Machine.execWrVram a d s
  | .wrCram a d => Sys2Proof.Machine.execWrCram a d s
  | .wrWram a d => Sys2Proof.Machine.execWrWram a d s
  | .wrEcho a d => Sys2Proof.Machine.execWrEcho a d s
  | .wrOam a d => Sys2Proof.Machine.execWrOam a d s
  | .wrUnus a d => Sys2Proof.Machine.execWrUnus a d s
  | .wrMmio a d => Sys2Proof.Machine.execWrMmio a d s

end Sys2Proof.Machine
end

