-- ==== Sys2Proof/Machine/Step.lean ====
section
/-! DEFINITION. One step: the block takes the oldest transaction the master has issued and answers it whole (43_facade.md
R219). With none issued the block does nothing (notes/assumptions/1.md). -/

namespace Sys2Proof.Machine

/-- One transaction, or nothing when the master has issued none. -/
def step (s : State) : Host.Outcome State Fault Refusal :=
  match s.fetch with
  | none => .next s
  | some (w, s') => exec (decodeWord w) s'

/-- The master's next transaction is the given word (bits at `nbits` and above are 0): the very next step runs it. -/
def State.withFetchWord (s : State) (nbits w : Nat) : State :=
  { s with pending := BitVec.ofNat 25 (w % 2 ^ nbits) :: s.pending }

end Sys2Proof.Machine
end

