-- ==== Sys2Proof/Machine/AddressDecoder.lean ====
section
/-! DEFINITION. The address decoder's contract (40_address_decoder.md R111 to R114): `resolve`, the diagnostic
classification, the `bc_write` line, the selector's coded outputs (00_scope.md R8, 30_encoding.md R84, R85), and the
facade's two transactions written whole (43_facade.md R210, R211). The operations' own meanings do not call these; that
the two agree is an obligation. -/

namespace Sys2Proof.Machine

/-- The closed target set (R84), with the offset or the handler as payload. -/
inductive Target where
  | romCell (offset : Nat)
  | ramCell (offset : Nat)
  | vramCell (offset : Nat)
  | wramCell (offset : Nat)
  | oamCell (offset : Nat)
  | mmioHandler (handler : Handler)
  | unmapped
deriving DecidableEq, Repr

/-- `resolve(addr, intent)` (R112): a function of the state, with no effect (R111); the intent is not looked at (R114). -/
def State.resolve (s : State) (a : Addr) (_intent : Intent) : Target :=
  match region a with
  | .rom0 => .romCell (s.translateRom a)
  | .romx => .romCell (s.translateRom a)
  | .vram => .vramCell (vramOffset a)
  | .cram => if s.accessible then .ramCell (s.translateRam a) else .unmapped
  | .wram => .wramCell (wramOffset a)
  | .echo => .wramCell (echoOffset a)
  | .oam => .oamCell (oamOffset a)
  | .unus => .unmapped
  | .mmio =>
    match s.handlerAt a with
    | some h => .mmioHandler h
    | none => .unmapped

/-- `diag_kind(addr)` (R113): by region and, for MMIO, the handler table; never by intent or target. -/
def State.diagKind (s : State) (a : Addr) : Option DiagKind :=
  match region a with
  | .echo => some .echo
  | .unus => some .unusedOam
  | .mmio =>
    match s.handlerAt a with
    | some _ => none
    | none => some .unmapped
  | .rom0 | .romx | .vram | .cram | .wram | .oam => none

/-- `bc_write` (R114): the write is forwarded to the bank controller. -/
def bcWrite (intent : Intent) (a : Addr) : Bool :=
  match intent with
  | .read => false
  | .write => decide (a.toNat ≤ 0x7FFF)

/-- Target codes (R84, decision D3). -/
def Target.code : Target → Nat
  | .romCell _ => 0
  | .ramCell _ => 1
  | .vramCell _ => 2
  | .wramCell _ => 3
  | .oamCell _ => 4
  | .mmioHandler _ => 5
  | .unmapped => 6

/-- The offset of a cell target (R8). -/
def Target.offset : Target → Option Nat
  | .romCell o | .ramCell o | .vramCell o | .wramCell o | .oamCell o => some o
  | .mmioHandler _ | .unmapped => none

/-- The handler of a handler target (R8). -/
def Target.handler : Target → Option Handler
  | .mmioHandler h => some h
  | .romCell _ | .ramCell _ | .vramCell _ | .wramCell _ | .oamCell _ | .unmapped => none

/-- Diagnostic codes (R85, decision D3); code 0 is "no event". -/
def DiagKind.code : DiagKind → Nat
  | .echo => 1
  | .unusedOam => 2
  | .unmapped => 3

/-- The selector's outputs during one transaction (R8): `target`, `offset`, `handler`, `bc_write` and the kind code of
`diag` (0 when there is no event). -/
structure Selector where
  target : Nat
  offset : Option Nat
  handler : Option Handler
  bcWrite : Bool
  diag : Nat
deriving DecidableEq, Repr

/-- The selector's outputs as functions of the transaction's inputs (R219). -/
def State.selector (s : State) (intent : Intent) (a : Addr) : Selector where
  target := (s.resolve a intent).code
  offset := (s.resolve a intent).offset
  handler := (s.resolve a intent).handler
  bcWrite := Sys2Proof.Machine.bcWrite intent a
  diag :=
    match s.diagKind a with
    | some k => k.code
    | none => 0

/-- The end of a transaction: one event when `diag_kind(addr)` is not `none` (R213), judged before the transaction. -/
def State.emitIfFlagged (kind : Option DiagKind) (a : Addr) (s : State) : State :=
  match kind with
  | some k => s.emit a k
  | none => s

/-- `read(addr)` (R210). -/
def State.facadeRead (s : State) (a : Addr) : State :=
  let answered :=
    match s.resolve a .read with
    | .romCell o => s.start.answer (s.rom.read o)
    | .ramCell o => s.start.answer (s.sram.read o)
    | .vramCell o => s.start.answer (s.vram.read o)
    | .wramCell o => s.start.answer (s.wram.read o)
    | .oamCell o => s.start.answer (s.oam.read o)
    | .mmioHandler h => s.start.callRead h
    | .unmapped => s.start.answer fillByte
  answered.emitIfFlagged (s.diagKind a) a

/-- `write(addr, v)` (R211). -/
def State.facadeWrite (s : State) (a : Addr) (v : Byte) : State :=
  let stored :=
    match s.resolve a .write with
    | .romCell _ => s.start.onBankControlWrite a v
    | .ramCell o => s.start.storeSram o v
    | .vramCell o => s.start.storeVram o v
    | .wramCell o => s.start.storeWram o v
    | .oamCell o => s.start.storeOam o v
    | .mmioHandler h => s.start.callWrite h v
    | .unmapped => s.start
  stored.emitIfFlagged (s.diagKind a) a

end Sys2Proof.Machine
end

