-- ==== Sys2Proof/Machine/HostOps.lean ====
section
/-! DEFINITION. The host operations LOAD, REGISTER and RESET (43_facade.md R214 to R221, 42_mmio_table.md R191, R192), their
errors (60_exceptions.md R231 to R233) and the boot order (70_reset_and_hazards.md R261). They have no bit encoding and no
bus master can issue them (R94), so they are functions beside `step`; an error is the call's result (R236). -/

namespace Sys2Proof.Machine

/-- Which of the three cases of R218 makes a header invalid. -/
inductive HeaderProblem where
  | unknownType
  | unknownRamSize
  | ramRequired
deriving DecidableEq, Repr

/-- The load errors (R231); the recorded case is optional there and kept here. -/
inductive LoadError where
  | io
  | invalidHeader (why : HeaderProblem)
deriving DecidableEq, Repr

/-- The configuration errors of REGISTER, each with the address it records (R231). -/
inductive ConfigError where
  | duplicateHandler (a : Addr)
  | addressOutOfRange (a : Addr)
  | lateRegistration (a : Addr)
deriving DecidableEq, Repr

/-- What stops the boot sequence (R261). -/
inductive HostError where
  | load (e : LoadError)
  | config (e : ConfigError)
deriving DecidableEq, Repr

/-- The numeric codes (R231, decision D28). -/
def HostError.code : HostError → Nat
  | .load .io => 1
  | .load (.invalidHeader _) => 2
  | .config (.duplicateHandler _) => 3
  | .config (.addressOutOfRange _) => 4
  | .config (.lateRegistration _) => 5

/-! ### LOAD -/

/-- `L' = max(0x4000, ceil(L / 0x4000) * 0x4000)` (R215). -/
def paddedLength (l : Nat) : Nat := max 0x4000 ((l + 0x3FFF) / 0x4000 * 0x4000)

/-- `ROM_BANKS = L' div 0x4000` (R215). -/
def romBanksOf (l : Nat) : Nat := paddedLength l / 0x4000

/-- `ROM` (R215): the image, then the pad byte 0xFF. -/
def padImage (image : List Byte) : Memory := Memory.ofBytes fillByte image

/-- The cartridge-type table (R217): the variant, and whether the cartridge has RAM. -/
def cartridgeType (type : Byte) : Option (Variant × Bool) :=
  if type = 0x00#8 then some (.none, false)
  else if type = 0x08#8 then some (.none, true)
  else if type = 0x09#8 then some (.none, true)
  else if type = 0x19#8 then some (.banked, false)
  else if type = 0x1A#8 then some (.banked, true)
  else if type = 0x1B#8 then some (.banked, true)
  else none

/-- The RAM-size table (R217): banks of 0x2000 bytes. -/
def ramSizeBanks (ramsize : Byte) : Option Nat :=
  if ramsize = 0x00#8 then some 0
  else if ramsize = 0x02#8 then some 1
  else if ramsize = 0x03#8 then some 4
  else if ramsize = 0x04#8 then some 16
  else if ramsize = 0x05#8 then some 8
  else none

/-- `header(ROM)` (R217, R218): the three cases of `InvalidHeader` in their order. The ROM-size code is not used. -/
def readHeader (rom : Memory) : Except HeaderProblem (Variant × Nat) :=
  match cartridgeType (rom.read 0x0147) with
  | none => .error .unknownType
  | some (variant, hasRam) =>
    match ramSizeBanks (rom.read 0x0149) with
    | none => .error .unknownRamSize
    | some banks =>
      if hasRam then (if banks = 0 then .error .ramRequired else .ok (variant, banks)) else .ok (variant, 0)

/-- `LOAD(image)` (R214); `none` is an image that could not be read (R216). The initial RAM contents are parameters
(R5, decision D21). -/
def load (image : Option (List Byte)) (init : InitContents) : Except LoadError State :=
  match image with
  | none => .error .io
  | some bytes =>
    match readHeader (padImage bytes) with
    | .error why => .error (.invalidHeader why)
    | .ok (variant, ramBanks) =>
      .ok (State.atReset ⟨variant, romBanksOf bytes.length, ramBanks⟩ (padImage bytes) init)

/-! ### REGISTER -/

/-- `REGISTER(a, h)` (R191), checks in the order of R233. It is late once a transaction has been answered; one that is
issued and still waits does not make it late: DESIGN CHOICE, notes/assumptions/20.md. -/
def State.register (a : Addr) (h : Handler) (s : State) : Except ConfigError State :=
  if s.phase ≠ .assembly then .error (.lateRegistration a)
  else if a.toNat < 0xFF00 then .error (.addressOutOfRange a)
  else if (s.handlerAt a).isSome then .error (.duplicateHandler a)
  else .ok { s with ht := sparseInsert s.ht a.toNat h }

/-- The addresses `a` to `b`, both included, in rising order; none when `b < a`. -/
def addressRange (a b : Addr) : List Addr :=
  (List.range (b.toNat + 1 - a.toNat)).map (fun k => BitVec.ofNat 16 (a.toNat + k))

/-- The table with one handler at every address of a list. -/
def registerAll (ht : List (Nat × Handler)) (as : List Addr) (h : Handler) : List (Nat × Handler) :=
  as.foldl (fun t a => sparseInsert t a.toNat h) ht

/-- `REGISTER a..b, h` (R192), for `a <= b`: all or nothing, the error of the lowest offending address. A range with
`b < a`, which R192 does not give, registers nothing: DESIGN CHOICE, notes/assumptions/12.md. Late as in
`State.register` (notes/assumptions/20.md). -/
def State.registerRange (a b : Addr) (h : Handler) (s : State) : Except ConfigError State :=
  if s.phase ≠ .assembly then .error (.lateRegistration a)
  else if a.toNat < 0xFF00 then .error (.addressOutOfRange a)
  else
    match (addressRange a b).find? (fun x => (s.handlerAt x).isSome) with
    | some x => .error (.duplicateHandler x)
    | none => .ok { s with ht := registerAll s.ht (addressRange a b) h }

/-! ### Boot and RESET -/

/-- One REGISTER call of the assembly phase; a single address has `first = last`. -/
structure Registration where
  first : Addr
  last : Addr
  handler : Handler
deriving DecidableEq, Repr

/-- Step 2 of the boot order: every REGISTER call in turn, stopping at the first error (R261). -/
def registerEach : List Registration → State → Except ConfigError State
  | [], s => .ok s
  | r :: rest, s =>
    match s.registerRange r.first r.last r.handler with
    | .error e => .error e
    | .ok t => registerEach rest t

/-- Steps 1 and 2 of the boot order (R261). -/
def boot (image : Option (List Byte)) (init : InitContents) (regs : List Registration) : Except HostError State :=
  match load image init with
  | .error e => .error (.load e)
  | .ok s =>
    match registerEach regs s with
    | .error e => .error (.config e)
    | .ok t => .ok t

/-- RESET (R221): LOAD of the same image followed by the same REGISTER calls, a new machine, made from
nothing of the old one (R263). Its initial RAM contents are again open (decision D21). -/
def resetMachine (image : Option (List Byte)) (init : InitContents) (regs : List Registration) :
    Except HostError State :=
  boot image init regs

end Sys2Proof.Machine
end

