-- ==== Sys2Proof/Safety.lean ====
section
/-! DEFINITION. The terms claims are stated in: runs of steps and of words, the invariant of a machine that LOAD made,
the states a machine can reach, and what two machines have in common when only their unreachable cells differ. -/

namespace Sys2Proof.Machine

/-- `k` steps in a row, stopping at a fault or a refusal (none ever comes: the obligation EveryTransactionCompletes). -/
def runSteps : Nat → State → Host.Outcome State Fault Refusal
  | 0, s => .next s
  | k + 1, s =>
    match step s with
    | .next t => runSteps k t
    | .fault r => .fault r
    | .refused r => .refused r

/-- The effects of a list of words, one instruction after the other: each word is taken from the queue and the instruction
it decodes to runs on the state the one before left. It does not look at what the queue holds, so `runSteps` agreeing with
it is a claim about the order of answers. -/
def answerEach : List BusWord → State → Host.Outcome State Fault Refusal
  | [], s => .next s
  | w :: ws, s =>
    match exec (decodeWord w) { s with pending := s.pending.drop 1 } with
    | .next t => answerEach ws t
    | .fault r => .fault r
    | .refused r => .refused r

/-- Initial RAM contents of the right sizes for a configuration, in canonical form (R5: "byte arrays of the region
sizes"). -/
abbrev InitContents.fits (init : InitContents) (c : Cfg) : Prop :=
  (init.sram.wf ∧ init.sram.within (sramSizeOf c)) ∧ (init.vram.wf ∧ init.vram.within vramSize) ∧
  (init.wram.wf ∧ init.wram.within wramSize) ∧ (init.oam.wf ∧ init.oam.within oamSize)

/-- Every storage region is canonical and no larger than R24 to R28 say. -/
abbrev State.memoriesFit (s : State) : Prop :=
  (s.rom.wf ∧ s.rom.within (romSizeOf s.cfg)) ∧ (s.sram.wf ∧ s.sram.within (sramSizeOf s.cfg)) ∧
  (s.vram.wf ∧ s.vram.within vramSize) ∧ (s.wram.wf ∧ s.wram.within wramSize) ∧ (s.oam.wf ∧ s.oam.within oamSize)

/-- The handler table is canonical and lists only addresses 0xFF00 to 0xFFFF (R29). -/
abbrev State.tableFits (s : State) : Prop :=
  sparseSorted s.ht ∧ ∀ e ∈ s.ht, 0xFF00 ≤ e.1 ∧ e.1 ≤ 0xFFFF

/-- There is at least one ROM bank (R24). -/
abbrev State.hasRomBank (s : State) : Prop := 1 ≤ s.cfg.romBanks

/-- In variant `NONE` the bank registers hold their reset values for ever (R165). -/
abbrev State.noneIsFixed (s : State) : Prop :=
  s.cfg.variant = .none → s.romBank = 1 ∧ s.ramBank = 0 ∧ s.ramEnable = true

/-- In the assembly phase no transaction has been answered (R30): the bank registers are at reset, nothing has been
dispatched or emitted. -/
abbrev State.assemblyIsUntouched (s : State) : Prop :=
  s.phase = .assembly →
    s.romBank = 1 ∧ s.ramBank = 0 ∧ (s.ramEnable = true ↔ s.cfg.variant = .none) ∧
    s.rdata = none ∧ s.dispatches = [] ∧ s.diags = [] ∧ s.draws = 0

/-- The invariant of every machine that LOAD made. -/
abbrev State.Inv (s : State) : Prop :=
  s.hasRomBank ∧ s.memoriesFit ∧ s.tableFits ∧ s.noneIsFixed ∧ s.assemblyIsUntouched

/-- The states a machine can be in: LOAD makes it, the host registers handlers, the master issues transactions, the
block answers them (R7, R261). REGISTER may also come between issuing the first transaction and answering it: DESIGN
CHOICE, notes/assumptions/20.md. -/
inductive Reachable : State → Prop
  | loaded {image : Option (List Byte)} {init : InitContents} {s : State} :
      load image init = .ok s → init.fits s.cfg → Reachable s
  | registered {a b : Addr} {h : Handler} {s t : State} :
      Reachable s → s.registerRange a b h = .ok t → Reachable t
  | issued {w : BusWord} {s : State} : Reachable s → Reachable (s.issue w)
  | stepped {s t : State} : Reachable s → step s = .next t → Reachable t

/-- Two machines that differ at most in the bytes no bus operation reaches: `WRAM[0x2000..]` and `OAM[0xA0..]` (R27,
R28, R34 c). -/
def State.sameReachable (s t : State) : Prop :=
  t = { s with wram := t.wram, oam := t.oam } ∧
  (∀ o, o < 0x2000 → t.wram.read o = s.wram.read o) ∧ (∀ o, o < 0xA0 → t.oam.read o = s.oam.read o)

/-- The operation is a bank-control write: WR.RAMG, WR.ROMB0, WR.ROMB1, WR.RAMB or WR.RSV6 (R154). -/
def isBankControl : Instr → Bool
  | .wrRamg _ _ | .wrRomb0 _ _ | .wrRomb1 _ _ | .wrRamb _ _ | .wrRsv6 _ _ => true
  | .rdRom0 _ | .rdRomx _ | .rdVram _ | .rdCram _ | .rdWram _ | .rdEcho _ | .rdOam _ | .rdUnus _ | .rdMmio _
  | .wrVram _ _ | .wrCram _ _ | .wrWram _ _ | .wrEcho _ _ | .wrOam _ _ | .wrUnus _ _ | .wrMmio _ _ => false

end Sys2Proof.Machine
end

