-- ==== Sys2Proof/Certificates/Slice0/Obligations.lean ====
section
/-! DEFINITION. The statements for the provers. In every statement about an operation, `phase := .run` is the first line of
43_facade.md R210 and R211; a field written `f := t.f` is one the statement does not constrain there (the `rdata` latch of
a WRITE is the model's own convention, notes/assumptions/3.md, and is stated in `WriteLeavesNoReadData`). -/

open Sys2Proof Sys2Proof.Machine

/-! ### Encoding and decoding -/

/-- Sanity: one word per operation, written out from R80 and the vectors V1 to V27 of 95_test_vectors.md, decodes to the
operation it stands for. The packing is the spec's decision D2. -/
def Obligations.SampleWordsDecode : Prop :=
  decodeWord 0x0015000#25 = .rdRom0 0x0150 ∧ decodeWord 0x04000A5#25 = .rdRomx 0x4000 ∧
  decodeWord 0x09FFF00#25 = .rdVram 0x9FFF ∧ decodeWord 0x0A00000#25 = .rdCram 0xA000 ∧
  decodeWord 0x0DFFF00#25 = .rdWram 0xDFFF ∧ decodeWord 0x0FDFF00#25 = .rdEcho 0xFDFF ∧
  decodeWord 0x0FE9F00#25 = .rdOam 0xFE9F ∧ decodeWord 0x0FEA000#25 = .rdUnus 0xFEA0 ∧
  decodeWord 0x0FFFF00#25 = .rdMmio 0xFFFF ∧ decodeWord 0x11FFF0A#25 = .wrRamg 0x1FFF 0x0A ∧
  decodeWord 0x1200005#25 = .wrRomb0 0x2000 0x05 ∧ decodeWord 0x13FFFFE#25 = .wrRomb1 0x3FFF 0xFE ∧
  decodeWord 0x15FFF13#25 = .wrRamb 0x5FFF 0x13 ∧ decodeWord 0x1600001#25 = .wrRsv6 0x6000 0x01 ∧
  decodeWord 0x180003C#25 = .wrVram 0x8000 0x3C ∧ decodeWord 0x1BFFF7E#25 = .wrCram 0xBFFF 0x7E ∧
  decodeWord 0x1C00012#25 = .wrWram 0xC000 0x12 ∧ decodeWord 0x1E00001#25 = .wrEcho 0xE000 0x01 ∧
  decodeWord 0x1FE0010#25 = .wrOam 0xFE00 0x10 ∧ decodeWord 0x1FEA042#25 = .wrUnus 0xFEA0 0x42 ∧
  decodeWord 0x1FF0477#25 = .wrMmio 0xFF04 0x77

/-- Decoding the encoding of any well-formed instruction gives it back: no bit of an operand is dropped. -/
def Obligations.DecodeEncodeRoundTrip : Prop :=
  ∀ i : Instr, i.wf = true → decodeWord (encode i) = i

/-- The other direction: every word decodes to a well-formed instruction whose encoding is the word itself, but that a
READ's data field, which is ignored, comes back as the canonical 0x00 (R80, R82; decision D2). The last clause, that the
decoder refuses exactly the numbers that are no 25-bit word and names them, is the model's choice (DESIGN CHOICE,
notes/assumptions/16.md). -/
def Obligations.EveryWordDecodesAndEncodesBack : Prop :=
  (∀ w : BusWord, (decodeWord w).wf = true ∧
    w.toNat = (intentField w).code * 0x1000000 + (addrField w).toNat * 0x100 + (dataField w).toNat ∧
    (0x1000000 ≤ w.toNat → encode (decodeWord w) = w) ∧
    (w.toNat < 0x1000000 → (encode (decodeWord w)).toNat = w.toNat / 0x100 * 0x100)) ∧
  (∀ n : Nat, (n < 2 ^ 25 → decode n = .ok (decodeWord (BitVec.ofNat 25 n))) ∧
    (2 ^ 25 ≤ n → decode n = .error (.wordTooWide n)))

/-- The opcode table's rows are pairwise disjoint, cover all words, and select the operation the decoder reads: for
every word the list of rows it selects has one row, that of the decoded operation (R93). -/
def Obligations.OpcodeTableSelectsTheDecodedOperation : Prop :=
  ∀ w : BusWord, (opcodeRows.filter (fun r => r.selects w)).map (fun r => r.mnemonic) = [(decodeWord w).mnemonic]

/-- The nine conditions of `region(addr)` (R110). -/
def Obligations.RegionByAddressRange : Prop :=
  ∀ a : Addr,
    (region a = .rom0 ↔ 0x0000 ≤ a.toNat ∧ a.toNat ≤ 0x3FFF) ∧ (region a = .romx ↔ 0x4000 ≤ a.toNat ∧ a.toNat ≤ 0x7FFF) ∧
    (region a = .vram ↔ 0x8000 ≤ a.toNat ∧ a.toNat ≤ 0x9FFF) ∧ (region a = .cram ↔ 0xA000 ≤ a.toNat ∧ a.toNat ≤ 0xBFFF) ∧
    (region a = .wram ↔ 0xC000 ≤ a.toNat ∧ a.toNat ≤ 0xDFFF) ∧ (region a = .echo ↔ 0xE000 ≤ a.toNat ∧ a.toNat ≤ 0xFDFF) ∧
    (region a = .oam ↔ 0xFE00 ≤ a.toNat ∧ a.toNat ≤ 0xFE9F) ∧ (region a = .unus ↔ 0xFEA0 ≤ a.toNat ∧ a.toNat ≤ 0xFEFF) ∧
    (region a = .mmio ↔ 0xFF00 ≤ a.toNat ∧ a.toNat ≤ 0xFFFF)

/-- The READ operation map (R83): the operation depends on the address only. -/
def Obligations.ReadOperationMap : Prop :=
  ∀ (a : Addr) (d : Byte),
    (decodeAccess .read a d = .rdRom0 a ↔ a.toNat ≤ 0x3FFF) ∧
    (decodeAccess .read a d = .rdRomx a ↔ 0x4000 ≤ a.toNat ∧ a.toNat ≤ 0x7FFF) ∧
    (decodeAccess .read a d = .rdVram a ↔ 0x8000 ≤ a.toNat ∧ a.toNat ≤ 0x9FFF) ∧
    (decodeAccess .read a d = .rdCram a ↔ 0xA000 ≤ a.toNat ∧ a.toNat ≤ 0xBFFF) ∧
    (decodeAccess .read a d = .rdWram a ↔ 0xC000 ≤ a.toNat ∧ a.toNat ≤ 0xDFFF) ∧
    (decodeAccess .read a d = .rdEcho a ↔ 0xE000 ≤ a.toNat ∧ a.toNat ≤ 0xFDFF) ∧
    (decodeAccess .read a d = .rdOam a ↔ 0xFE00 ≤ a.toNat ∧ a.toNat ≤ 0xFE9F) ∧
    (decodeAccess .read a d = .rdUnus a ↔ 0xFEA0 ≤ a.toNat ∧ a.toNat ≤ 0xFEFF) ∧
    (decodeAccess .read a d = .rdMmio a ↔ 0xFF00 ≤ a.toNat)

/-- The WRITE operation map (30_encoding.md section 2); the five sub-ranges of 0x0000 to 0x7FFF are the spec's decision
D5. -/
def Obligations.WriteOperationMap : Prop :=
  ∀ (a : Addr) (d : Byte),
    (decodeAccess .write a d = .wrRamg a d ↔ a.toNat ≤ 0x1FFF) ∧
    (decodeAccess .write a d = .wrRomb0 a d ↔ 0x2000 ≤ a.toNat ∧ a.toNat ≤ 0x2FFF) ∧
    (decodeAccess .write a d = .wrRomb1 a d ↔ 0x3000 ≤ a.toNat ∧ a.toNat ≤ 0x3FFF) ∧
    (decodeAccess .write a d = .wrRamb a d ↔ 0x4000 ≤ a.toNat ∧ a.toNat ≤ 0x5FFF) ∧
    (decodeAccess .write a d = .wrRsv6 a d ↔ 0x6000 ≤ a.toNat ∧ a.toNat ≤ 0x7FFF) ∧
    (decodeAccess .write a d = .wrVram a d ↔ 0x8000 ≤ a.toNat ∧ a.toNat ≤ 0x9FFF) ∧
    (decodeAccess .write a d = .wrCram a d ↔ 0xA000 ≤ a.toNat ∧ a.toNat ≤ 0xBFFF) ∧
    (decodeAccess .write a d = .wrWram a d ↔ 0xC000 ≤ a.toNat ∧ a.toNat ≤ 0xDFFF) ∧
    (decodeAccess .write a d = .wrEcho a d ↔ 0xE000 ≤ a.toNat ∧ a.toNat ≤ 0xFDFF) ∧
    (decodeAccess .write a d = .wrOam a d ↔ 0xFE00 ≤ a.toNat ∧ a.toNat ≤ 0xFE9F) ∧
    (decodeAccess .write a d = .wrUnus a d ↔ 0xFEA0 ≤ a.toNat ∧ a.toNat ≤ 0xFEFF) ∧
    (decodeAccess .write a d = .wrMmio a d ↔ 0xFF00 ≤ a.toNat)

/-! ### The step -/

/-- A step takes the oldest issued transaction and runs the instruction its word decodes to; a word placed with
`withFetchWord` is the one the very next step runs. With none issued the block does nothing, which is the model's choice
(notes/assumptions/1.md). -/
def Obligations.StepRunsTheDecodedTransaction : Prop :=
  (∀ (s : State) (w : BusWord) (rest : List BusWord), s.pending = w :: rest →
    step s = exec (decodeWord w) { s with pending := rest }) ∧
  (∀ s : State, s.pending = [] → step s = .next s) ∧
  (∀ (s : State) (nbits w : Nat), 25 ≤ nbits → w < 2 ^ 25 →
    step (s.withFetchWord nbits w) = exec (decodeWord (BitVec.ofNat 25 w)) s)

/-- Transactions are answered in the order the master issued them, one a step, each whole before the next
(20_memory.md section 4): `k` steps are the instructions of the first `k` issued words, oldest first, each run on the state
the one before left, and the rest still wait in order. That issued words wait in a queue of the state, and that a step with
none issued changes nothing, is the model's choice (DESIGN CHOICE, notes/assumptions/1.md). -/
def Obligations.TransactionsAreAnsweredInOrder : Prop :=
  ∀ (k : Nat) (s : State), ∃ t, runSteps k s = .next t ∧ answerEach (s.pending.take k) s = .next t ∧
    t.pending = s.pending.drop k

/-- Every transaction completes: no instruction and no step faults or is refused, whatever the state (R212). -/
def Obligations.EveryTransactionCompletes : Prop :=
  (∀ (i : Instr) (s : State), ∃ t, exec i s = .next t) ∧ (∀ s : State, ∃ t, step s = .next t)

/-! ### The decoder's selector -/

/-- `resolve` is total and every cell it names exists: the offset lies inside the region's size (40_address_decoder.md
section 1). `Unmapped` for cartridge RAM that is not accessible is the spec's decision D10, for 0xFEA0 to 0xFEFF its
resolution C1. -/
def Obligations.ResolveNamesTheCellOfEveryAddress : Prop :=
  ∀ (s : State) (a : Addr) (i : Intent), 1 ≤ s.cfg.romBanks →
    (a.toNat ≤ 0x3FFF → s.resolve a i = .romCell a.toNat ∧ a.toNat < s.cfg.romBanks * 0x4000) ∧
    (0x4000 ≤ a.toNat → a.toNat ≤ 0x7FFF →
      s.resolve a i = .romCell ((s.romBank.toNat % s.cfg.romBanks) * 0x4000 + (a.toNat - 0x4000)) ∧
      (s.romBank.toNat % s.cfg.romBanks) * 0x4000 + (a.toNat - 0x4000) < s.cfg.romBanks * 0x4000) ∧
    (0x8000 ≤ a.toNat → a.toNat ≤ 0x9FFF → s.resolve a i = .vramCell (a.toNat - 0x8000) ∧ a.toNat - 0x8000 < vramSize) ∧
    (0xA000 ≤ a.toNat → a.toNat ≤ 0xBFFF → s.ramEnable = true → 0 < s.cfg.ramBanks →
      s.resolve a i = .ramCell ((s.ramBank.toNat % s.cfg.ramBanks) * 0x2000 + (a.toNat - 0xA000)) ∧
      (s.ramBank.toNat % s.cfg.ramBanks) * 0x2000 + (a.toNat - 0xA000) < s.cfg.ramBanks * 0x2000) ∧
    (0xA000 ≤ a.toNat → a.toNat ≤ 0xBFFF → (s.ramEnable = false ∨ s.cfg.ramBanks = 0) → s.resolve a i = .unmapped) ∧
    (0xC000 ≤ a.toNat → a.toNat ≤ 0xDFFF → s.resolve a i = .wramCell (a.toNat - 0xC000) ∧ a.toNat - 0xC000 < 0x2000) ∧
    (0xE000 ≤ a.toNat → a.toNat ≤ 0xFDFF → s.resolve a i = .wramCell (a.toNat - 0xE000) ∧ a.toNat - 0xE000 < 0x1E00) ∧
    (0xFE00 ≤ a.toNat → a.toNat ≤ 0xFE9F → s.resolve a i = .oamCell (a.toNat - 0xFE00) ∧ a.toNat - 0xFE00 < 0xA0) ∧
    (0xFEA0 ≤ a.toNat → a.toNat ≤ 0xFEFF → s.resolve a i = .unmapped) ∧
    (∀ h, 0xFF00 ≤ a.toNat → s.handlerAt a = some h → s.resolve a i = .mmioHandler h) ∧
    (0xFF00 ≤ a.toNat → s.handlerAt a = none → s.resolve a i = .unmapped)

/-- The selector's outputs (00_scope.md section 4, decisions D1, D3, D29): the intent changes none but `bc_write`, which
is 1 exactly on a WRITE to an address at most 0x7FFF; every offset fits in 23 bits (17 for `RamCell`), the target code is
0 to 6 and the diagnostic code 0 to 3. -/
def Obligations.SelectorOutputsFitTheirPorts : Prop :=
  ∀ (s : State) (a : Addr) (i : Intent),
    s.resolve a .read = s.resolve a .write ∧
    ((s.selector i a).bcWrite = true ↔ i = .write ∧ a.toNat ≤ 0x7FFF) ∧
    ((s.selector .read a).target = (s.selector .write a).target ∧ (s.selector .read a).offset = (s.selector .write a).offset ∧
      (s.selector .read a).handler = (s.selector .write a).handler ∧ (s.selector .read a).diag = (s.selector .write a).diag) ∧
    (∀ o, (s.selector i a).offset = some o → o ≤ 0x7FFFFF ∧ ((s.selector i a).target = 1 → o ≤ 0x1FFFF)) ∧
    (s.selector i a).target ≤ 6 ∧ (s.selector i a).diag ≤ 3

/-- Which accesses are flagged and with which kind (40_address_decoder.md section 1; decisions D10, D13, D14), and that a
transaction emits one event exactly when its address is flagged, READ and WRITE alike, carrying the address as issued, at
the end of the trace (43_facade.md section 1; decision D15). -/
def Obligations.OneEventPerFlaggedTransaction : Prop :=
  (∀ (s : State) (a : Addr),
    (s.diagKind a = some .echo ↔ 0xE000 ≤ a.toNat ∧ a.toNat ≤ 0xFDFF) ∧
    (s.diagKind a = some .unusedOam ↔ 0xFEA0 ≤ a.toNat ∧ a.toNat ≤ 0xFEFF) ∧
    (s.diagKind a = some .unmapped ↔ 0xFF00 ≤ a.toNat ∧ s.handlerAt a = none)) ∧
  (∀ (i : Instr) (s : State), i.wf = true → ∃ t, exec i s = .next t ∧
    (∀ k, s.diagKind i.addr = some k → t.diags = s.diags ++ [⟨i.addr, k⟩]) ∧
    (s.diagKind i.addr = none → t.diags = s.diags))

/-- Exactly one dispatch per access of a handled address, of the effect the intent names; none otherwise (R199). -/
def Obligations.OneDispatchPerHandledTransaction : Prop :=
  ∀ (i : Instr) (s : State), i.wf = true → ∃ t, exec i s = .next t ∧
    (∀ h, 0xFF00 ≤ i.addr.toNat → s.handlerAt i.addr = some h → i.intent = .read →
      t.dispatches = s.dispatches ++ [.read h]) ∧
    (∀ h, 0xFF00 ≤ i.addr.toNat → s.handlerAt i.addr = some h → i.intent = .write →
      t.dispatches = s.dispatches ++ [.write h i.data]) ∧
    ((i.addr.toNat < 0xFF00 ∨ s.handlerAt i.addr = none) → t.dispatches = s.dispatches)

/-! ### Cartridge operations -/

/-- RD.ROM0 (R156). -/
def Obligations.RdRom0ReturnsTheFixedBankByte : Prop :=
  ∀ (s : State) (a : Addr) (d : Byte),
    (a &&& 0xC000#16 = 0x0000#16 ↔ a.toNat ≤ 0x3FFF) ∧
    (a.toNat ≤ 0x3FFF → decodeAccess .read a d = .rdRom0 a ∧
      exec (.rdRom0 a) s = .next { s with phase := .run, rdata := some (s.rom.read a.toNat) })

/-- RD.ROMX (R157). -/
def Obligations.RdRomxReturnsTheSelectedBankByte : Prop :=
  ∀ (s : State) (a : Addr) (d : Byte),
    (a &&& 0xC000#16 = 0x4000#16 ↔ 0x4000 ≤ a.toNat ∧ a.toNat ≤ 0x7FFF) ∧
    (0x4000 ≤ a.toNat → a.toNat ≤ 0x7FFF → decodeAccess .read a d = .rdRomx a ∧
      exec (.rdRomx a) s = .next { s with
        phase := .run
        rdata := some (s.rom.read ((s.romBank.toNat % s.cfg.romBanks) * 0x4000 + (a.toNat - 0x4000))) })

/-- The wrap rule (R152, R153): the effective bank is the index modulo the count, in `0 .. count - 1`; an index equal to
the count wraps too; offsets stay below the region's size and within 23 and 17 bits. -/
def Obligations.BankIndicesWrapModuloTheCount : Prop :=
  ∀ (s : State) (a : Addr),
    (0x4000 ≤ a.toNat → a.toNat ≤ 0x7FFF →
      s.translateRom a = (s.romBank.toNat % s.cfg.romBanks) * 0x4000 + (a.toNat - 0x4000) ∧ s.translateRom a ≤ 0x7FFFFF ∧
      (1 ≤ s.cfg.romBanks → s.translateRom a < s.cfg.romBanks * 0x4000) ∧
      (s.romBank.toNat = s.cfg.romBanks → s.translateRom a = a.toNat - 0x4000)) ∧
    (0xA000 ≤ a.toNat → a.toNat ≤ 0xBFFF → 0 < s.cfg.ramBanks →
      s.translateRam a = (s.ramBank.toNat % s.cfg.ramBanks) * 0x2000 + (a.toNat - 0xA000) ∧ s.translateRam a ≤ 0x1FFFF ∧
      s.translateRam a < s.cfg.ramBanks * 0x2000 ∧
      (s.ramBank.toNat = s.cfg.ramBanks → s.translateRam a = a.toNat - 0xA000) ∧
      (∀ e : Bool, ({ s with ramEnable := e } : State).translateRam a = s.translateRam a)) ∧
    (∀ i o, s.cfg.ramBanks = 0 → s.resolve a i ≠ .ramCell o)

/-- WR.RAMG (41_bank_controller.md section 4): 0x0A sets the latch, 0x00 clears it, every other byte leaves it; nothing
else changes, and nothing at all in variant `NONE`. The patterns are the spec's decision D6, the range D5, `NONE` D26. -/
def Obligations.WrRamgSetsClearsOrKeepsTheLatch : Prop :=
  ∀ (s : State) (a : Addr) (v : Byte), a.toNat ≤ 0x1FFF →
    decodeAccess .write a v = .wrRamg a v ∧
    (s.cfg.variant = .banked → ∃ t, exec (.wrRamg a v) s = .next t ∧
      t = { s with phase := .run, rdata := none, ramEnable := t.ramEnable } ∧
      (v = 0x0A → t.ramEnable = true) ∧ (v = 0x00 → t.ramEnable = false) ∧
      (v ≠ 0x0A → v ≠ 0x00 → t.ramEnable = s.ramEnable)) ∧
    (s.cfg.variant = .none → exec (.wrRamg a v) s = .next { s with phase := .run, rdata := none })

/-- WR.ROMB0 (41_bank_controller.md section 4): the low eight bits of `rom_bank` take the byte as it is, bit 8 stays.
Range and widths are the spec's decisions D5 and D7, `NONE` is D26. -/
def Obligations.WrRomb0WritesTheLowBankByte : Prop :=
  ∀ (s : State) (a : Addr) (v : Byte), 0x2000 ≤ a.toNat → a.toNat ≤ 0x2FFF →
    decodeAccess .write a v = .wrRomb0 a v ∧
    (s.cfg.variant = .banked → ∃ t, exec (.wrRomb0 a v) s = .next t ∧
      t = { s with phase := .run, rdata := none, romBank := t.romBank } ∧
      t.romBank.toNat = s.romBank.toNat / 0x100 * 0x100 + v.toNat) ∧
    (s.cfg.variant = .none → exec (.wrRomb0 a v) s = .next { s with phase := .run, rdata := none })

/-- WR.ROMB1 (41_bank_controller.md section 4): bit 8 of `rom_bank` takes bit 0 of the byte, the low eight bits stay.
Range and widths are the spec's decisions D5 and D7, `NONE` is D26. -/
def Obligations.WrRomb1WritesTheNinthBankBit : Prop :=
  ∀ (s : State) (a : Addr) (v : Byte), 0x3000 ≤ a.toNat → a.toNat ≤ 0x3FFF →
    decodeAccess .write a v = .wrRomb1 a v ∧
    (s.cfg.variant = .banked → ∃ t, exec (.wrRomb1 a v) s = .next t ∧
      t = { s with phase := .run, rdata := none, romBank := t.romBank } ∧
      t.romBank.toNat = v.toNat % 2 * 0x100 + s.romBank.toNat % 0x100) ∧
    (s.cfg.variant = .none → exec (.wrRomb1 a v) s = .next { s with phase := .run, rdata := none })

/-- WR.RAMB (41_bank_controller.md section 4): `ram_bank` takes the low four bits of the byte, whether or not RAM is
enabled or present. Range and widths are the spec's decisions D5 and D7, `NONE` is D26. -/
def Obligations.WrRambWritesTheRamBank : Prop :=
  ∀ (s : State) (a : Addr) (v : Byte), 0x4000 ≤ a.toNat → a.toNat ≤ 0x5FFF →
    decodeAccess .write a v = .wrRamb a v ∧
    (s.cfg.variant = .banked → ∃ t, exec (.wrRamb a v) s = .next t ∧
      t = { s with phase := .run, rdata := none, ramBank := t.ramBank } ∧ t.ramBank.toNat = v.toNat % 0x10) ∧
    (s.cfg.variant = .none → exec (.wrRamb a v) s = .next { s with phase := .run, rdata := none })

/-- WR.RSV6 (41_bank_controller.md section 4): dropped in both variants. The reserved range is the spec's decision D5. -/
def Obligations.WrRsv6ChangesNothing : Prop :=
  ∀ (s : State) (a : Addr) (v : Byte), 0x6000 ≤ a.toNat → a.toNat ≤ 0x7FFF →
    decodeAccess .write a v = .wrRsv6 a v ∧ bcWrite .write a = true ∧
    exec (.wrRsv6 a v) s = .next { s with phase := .run, rdata := none }

/-- The bank controller's three operations (R150): only `on_bank_control_write` changes `rom_bank`, `ram_bank` or
`ram_enable`, and the two translations depend on the address, the configuration and the two bank registers only. -/
def Obligations.OnlyBankControlWritesChangeBankState : Prop :=
  (∀ (i : Instr) (s : State), isBankControl i = false → ∃ t, exec i s = .next t ∧
    t.romBank = s.romBank ∧ t.ramBank = s.ramBank ∧ t.ramEnable = s.ramEnable) ∧
  (∀ (i : Instr) (s : State), isBankControl i = true → i.wf = true →
    exec i s = .next (s.start.onBankControlWrite i.addr i.data)) ∧
  (∀ (s t : State) (a : Addr), t.cfg = s.cfg → t.romBank = s.romBank → t.ramBank = s.ramBank →
    t.translateRom a = s.translateRom a ∧ t.translateRam a = s.translateRam a)

/-- Writing to any ROM address is a no-op for what is read there: read, write, read gives the first byte again, in both
variants and for every byte written (41_bank_controller.md section 3, document section 8 item 5). -/
def Obligations.WritingToRomLeavesWhatIsReadThere : Prop :=
  ∀ (s : State) (a : Addr) (v d : Byte), a.toNat ≤ 0x7FFF →
    ∃ before written after b, exec (decodeAccess .read a d) s = .next before ∧ before.rdata = some b ∧
      exec (decodeAccess .write a v) s = .next written ∧ written.rom = s.rom ∧
      exec (decodeAccess .read a d) written = .next after ∧ after.rdata = some b

/-- RD.CRAM (R163): the cell while accessible, the fill byte otherwise, and no event in either case. -/
def Obligations.RdCramReturnsTheBankByteOrFill : Prop :=
  ∀ (s : State) (a : Addr) (d : Byte),
    (a &&& 0xE000#16 = 0xA000#16 ↔ 0xA000 ≤ a.toNat ∧ a.toNat ≤ 0xBFFF) ∧
    (0xA000 ≤ a.toNat → a.toNat ≤ 0xBFFF → decodeAccess .read a d = .rdCram a ∧
      (s.ramEnable = true → 0 < s.cfg.ramBanks → exec (.rdCram a) s = .next { s with
        phase := .run
        rdata := some (s.sram.read ((s.ramBank.toNat % s.cfg.ramBanks) * 0x2000 + (a.toNat - 0xA000))) }) ∧
      ((s.ramEnable = false ∨ s.cfg.ramBanks = 0) →
        exec (.rdCram a) s = .next { s with phase := .run, rdata := some 0xFF }))

/-- WR.CRAM (R164): one cell while accessible, nothing otherwise; no bank register changes. -/
def Obligations.WrCramStoresOnlyWhileAccessible : Prop :=
  ∀ (s : State) (a : Addr) (v : Byte),
    (a &&& 0xE000#16 = 0xA000#16 ↔ 0xA000 ≤ a.toNat ∧ a.toNat ≤ 0xBFFF) ∧
    (0xA000 ≤ a.toNat → a.toNat ≤ 0xBFFF → decodeAccess .write a v = .wrCram a v ∧
      (s.ramEnable = true → 0 < s.cfg.ramBanks → ∃ t, exec (.wrCram a v) s = .next t ∧
        t = { s with phase := .run, rdata := t.rdata, sram := t.sram } ∧
        ∀ o, t.sram.read o =
          if o = (s.ramBank.toNat % s.cfg.ramBanks) * 0x2000 + (a.toNat - 0xA000) then v else s.sram.read o) ∧
      ((s.ramEnable = false ∨ s.cfg.ramBanks = 0) → ∃ t, exec (.wrCram a v) s = .next t ∧
        t = { s with phase := .run, rdata := t.rdata }))

/-- The bytes of cartridge RAM survive a disabled interval: clearing the latch hides every cell behind 0xFF, a write is
then lost, and setting the latch shows the same byte again (41_bank_controller.md section 4; patterns D6). -/
def Obligations.CartridgeRamSurvivesTheDisabledInterval : Prop :=
  ∀ (s : State) (g g' a : Addr) (v : Byte), s.cfg.variant = .banked → s.accessible = true →
    g.toNat ≤ 0x1FFF → g'.toNat ≤ 0x1FFF → 0xA000 ≤ a.toNat → a.toNat ≤ 0xBFFF →
    ∃ off hidden lost on shown,
      exec (.wrRamg g 0x00) s = .next off ∧ exec (.rdCram a) off = .next hidden ∧ hidden.rdata = some 0xFF ∧
      exec (.wrCram a v) hidden = .next lost ∧ exec (.wrRamg g' 0x0A) lost = .next on ∧
      exec (.rdCram a) on = .next shown ∧ on.sram = s.sram ∧ shown.rdata = some (s.sram.read (s.translateRam a))

/-- Variant `NONE` (41_bank_controller.md section 3, decision D26): with the registers at their fixed values, 0x4000 to
0x7FFF shows ROM bank `1 mod ROM_BANKS`, cartridge RAM is accessible whenever there is any and shows bank 0, and no
transaction changes a bank register. -/
def Obligations.NoneVariantShowsFixedBanks : Prop :=
  ∀ s : State, s.cfg.variant = .none → s.noneIsFixed →
    (∀ a : Addr, 0x4000 ≤ a.toNat → a.toNat ≤ 0x7FFF → ∃ t, exec (.rdRomx a) s = .next t ∧
      t.rdata = some (s.rom.read ((1 % s.cfg.romBanks) * 0x4000 + (a.toNat - 0x4000)))) ∧
    (∀ a : Addr, 0xA000 ≤ a.toNat → a.toNat ≤ 0xBFFF → 0 < s.cfg.ramBanks → ∃ t, exec (.rdCram a) s = .next t ∧
      t.rdata = some (s.sram.read (a.toNat - 0xA000))) ∧
    (∀ i : Instr, ∃ t, exec i s = .next t ∧ t.noneIsFixed ∧ t.cfg = s.cfg)

/-- A bank-control write governs the very next transaction (70_reset_and_hazards.md section 2). Whatever the next word
is, it runs on the registers `on_bank_control_write` leaves; and in variant `BANKED`, by two steps: WR.ROMB0 or WR.ROMB1
and then RD.ROMX, the byte is from the new ROM bank; WR.RAMB and then RD.CRAM or WR.CRAM, the cell is in the new RAM bank;
WR.RAMG and then RD.CRAM or WR.CRAM, cartridge RAM is there after 0x0A, gone after 0x00, and as before after any other
byte. The register layout is the spec's decision D5, the patterns D6; that both words wait in a queue of the state is the
model's choice (DESIGN CHOICE, notes/assumptions/1.md). -/
def Obligations.BankWriteGovernsTheNextTransaction : Prop :=
  (∀ (s : State) (a : Addr) (v : Byte) (w : BusWord) (rest : List BusWord), a.toNat ≤ 0x7FFF →
    s.pending = packWord .write a v :: w :: rest →
    ∃ t, step s = .next t ∧ t = (({ s with pending := w :: rest } : State).start.onBankControlWrite a v) ∧
      step t = exec (decodeWord w) { t with pending := rest }) ∧
  (∀ (s : State) (a b : Addr) (v d : Byte) (rest : List BusWord), s.cfg.variant = .banked →
    0x4000 ≤ b.toNat → b.toNat ≤ 0x7FFF → s.pending = packWord .write a v :: packWord .read b d :: rest →
    (0x2000 ≤ a.toNat → a.toNat ≤ 0x2FFF → ∃ t u, step s = .next t ∧ step t = .next u ∧ u.pending = rest ∧
      u.rdata = some (s.rom.read
        (((s.romBank.toNat / 0x100 * 0x100 + v.toNat) % s.cfg.romBanks) * 0x4000 + (b.toNat - 0x4000)))) ∧
    (0x3000 ≤ a.toNat → a.toNat ≤ 0x3FFF → ∃ t u, step s = .next t ∧ step t = .next u ∧ u.pending = rest ∧
      u.rdata = some (s.rom.read
        (((v.toNat % 2 * 0x100 + s.romBank.toNat % 0x100) % s.cfg.romBanks) * 0x4000 + (b.toNat - 0x4000))))) ∧
  (∀ (s : State) (a b : Addr) (v d : Byte) (rest : List BusWord), s.cfg.variant = .banked →
    0xA000 ≤ b.toNat → b.toNat ≤ 0xBFFF → s.pending = packWord .write a v :: packWord .read b d :: rest →
    (0x4000 ≤ a.toNat → a.toNat ≤ 0x5FFF → s.accessible = true →
      ∃ t u, step s = .next t ∧ step t = .next u ∧ u.pending = rest ∧
        u.rdata = some (s.sram.read ((v.toNat % 0x10 % s.cfg.ramBanks) * 0x2000 + (b.toNat - 0xA000)))) ∧
    (a.toNat ≤ 0x1FFF → ∃ t u, step s = .next t ∧ step t = .next u ∧ u.pending = rest ∧
      (v = 0x0A → 0 < s.cfg.ramBanks →
        u.rdata = some (s.sram.read ((s.ramBank.toNat % s.cfg.ramBanks) * 0x2000 + (b.toNat - 0xA000)))) ∧
      (v = 0x00 → u.rdata = some 0xFF) ∧
      (v ≠ 0x0A → v ≠ 0x00 → u.rdata = some (if s.accessible = true then
        s.sram.read ((s.ramBank.toNat % s.cfg.ramBanks) * 0x2000 + (b.toNat - 0xA000)) else 0xFF)))) ∧
  (∀ (s : State) (a b : Addr) (v d : Byte) (rest : List BusWord), s.cfg.variant = .banked →
    0xA000 ≤ b.toNat → b.toNat ≤ 0xBFFF → s.pending = packWord .write a v :: packWord .write b d :: rest →
    (0x4000 ≤ a.toNat → a.toNat ≤ 0x5FFF → s.accessible = true →
      ∃ t u, step s = .next t ∧ step t = .next u ∧ u.pending = rest ∧ ∀ o, u.sram.read o =
        if o = (v.toNat % 0x10 % s.cfg.ramBanks) * 0x2000 + (b.toNat - 0xA000) then d else s.sram.read o) ∧
    (a.toNat ≤ 0x1FFF → ∃ t u, step s = .next t ∧ step t = .next u ∧ u.pending = rest ∧
      (v = 0x0A → 0 < s.cfg.ramBanks → ∀ o, u.sram.read o =
        if o = (s.ramBank.toNat % s.cfg.ramBanks) * 0x2000 + (b.toNat - 0xA000) then d else s.sram.read o) ∧
      (v = 0x00 → u.sram = s.sram) ∧
      (v ≠ 0x0A → v ≠ 0x00 → ∀ o, u.sram.read o =
        if s.accessible = true ∧ o = (s.ramBank.toNat % s.cfg.ramBanks) * 0x2000 + (b.toNat - 0xA000) then d
        else s.sram.read o)))

/-! ### Internal memory -/

/-- RD.VRAM (R116). -/
def Obligations.RdVramReturnsTheVramByte : Prop :=
  ∀ (s : State) (a : Addr) (d : Byte),
    (a &&& 0xE000#16 = 0x8000#16 ↔ 0x8000 ≤ a.toNat ∧ a.toNat ≤ 0x9FFF) ∧
    (0x8000 ≤ a.toNat → a.toNat ≤ 0x9FFF → decodeAccess .read a d = .rdVram a ∧
      exec (.rdVram a) s = .next { s with phase := .run, rdata := some (s.vram.read (a.toNat - 0x8000)) })

/-- WR.VRAM (R117): one cell, and a read there returns the byte. -/
def Obligations.WrVramStoresOneByte : Prop :=
  ∀ (s : State) (a : Addr) (v : Byte),
    (a &&& 0xE000#16 = 0x8000#16 ↔ 0x8000 ≤ a.toNat ∧ a.toNat ≤ 0x9FFF) ∧
    (0x8000 ≤ a.toNat → a.toNat ≤ 0x9FFF → decodeAccess .write a v = .wrVram a v ∧ ∃ t, exec (.wrVram a v) s = .next t ∧
      t = { s with phase := .run, rdata := t.rdata, vram := t.vram } ∧
      (∀ o, t.vram.read o = if o = a.toNat - 0x8000 then v else s.vram.read o) ∧
      ∃ u, exec (.rdVram a) t = .next u ∧ u.rdata = some v)

/-- RD.WRAM (R118). -/
def Obligations.RdWramReturnsTheWramByte : Prop :=
  ∀ (s : State) (a : Addr) (d : Byte),
    (a &&& 0xE000#16 = 0xC000#16 ↔ 0xC000 ≤ a.toNat ∧ a.toNat ≤ 0xDFFF) ∧
    (0xC000 ≤ a.toNat → a.toNat ≤ 0xDFFF → decodeAccess .read a d = .rdWram a ∧
      exec (.rdWram a) s = .next { s with phase := .run, rdata := some (s.wram.read (a.toNat - 0xC000)) })

/-- WR.WRAM (R119): one cell, seen by a read at `a + 0x2000` where that is an echo address. -/
def Obligations.WrWramStoresOneByte : Prop :=
  ∀ (s : State) (a : Addr) (v : Byte),
    (a &&& 0xE000#16 = 0xC000#16 ↔ 0xC000 ≤ a.toNat ∧ a.toNat ≤ 0xDFFF) ∧
    (0xC000 ≤ a.toNat → a.toNat ≤ 0xDFFF → decodeAccess .write a v = .wrWram a v ∧ ∃ t, exec (.wrWram a v) s = .next t ∧
      t = { s with phase := .run, rdata := t.rdata, wram := t.wram } ∧
      (∀ o, t.wram.read o = if o = a.toNat - 0xC000 then v else s.wram.read o) ∧
      (a.toNat ≤ 0xDDFF → ∃ u, exec (.rdEcho (a + 0x2000#16)) t = .next u ∧ u.rdata = some v))

/-- RD.ECHO (R120): the cell of address `addr - 0x2000`, and one `ECHO` event with the address as issued. -/
def Obligations.RdEchoReturnsTheAliasedByte : Prop :=
  ∀ (s : State) (a : Addr) (d : Byte),
    ((a &&& 0xF000#16 = 0xE000#16 ∨ a &&& 0xF800#16 = 0xF000#16 ∨ a &&& 0xFC00#16 = 0xF800#16 ∨ a &&& 0xFE00#16 = 0xFC00#16) ↔
      0xE000 ≤ a.toNat ∧ a.toNat ≤ 0xFDFF) ∧
    (0xE000 ≤ a.toNat → a.toNat ≤ 0xFDFF → decodeAccess .read a d = .rdEcho a ∧
      exec (.rdEcho a) s = .next { s with
        phase := .run
        rdata := some (s.wram.read (a.toNat - 0xE000))
        diags := s.diags ++ [⟨a, .echo⟩] } ∧
      ∃ t, exec (.rdWram (a - 0x2000#16)) s = .next t ∧ t.rdata = some (s.wram.read (a.toNat - 0xE000)))

/-- WR.ECHO (R121): the aliased cell is written in full, and one `ECHO` event. -/
def Obligations.WrEchoStoresTheAliasedByte : Prop :=
  ∀ (s : State) (a : Addr) (v : Byte),
    ((a &&& 0xF000#16 = 0xE000#16 ∨ a &&& 0xF800#16 = 0xF000#16 ∨ a &&& 0xFC00#16 = 0xF800#16 ∨ a &&& 0xFE00#16 = 0xFC00#16) ↔
      0xE000 ≤ a.toNat ∧ a.toNat ≤ 0xFDFF) ∧
    (0xE000 ≤ a.toNat → a.toNat ≤ 0xFDFF → decodeAccess .write a v = .wrEcho a v ∧ ∃ t, exec (.wrEcho a v) s = .next t ∧
      t = { s with phase := .run, rdata := t.rdata, wram := t.wram, diags := s.diags ++ [⟨a, .echo⟩] } ∧
      (∀ o, t.wram.read o = if o = a.toNat - 0xE000 then v else s.wram.read o) ∧
      ∃ u, exec (.rdWram (a - 0x2000#16)) t = .next u ∧ u.rdata = some v)

/-- RD.OAM (R122). -/
def Obligations.RdOamReturnsTheOamByte : Prop :=
  ∀ (s : State) (a : Addr) (d : Byte),
    ((a &&& 0xFF80#16 = 0xFE00#16 ∨ a &&& 0xFFE0#16 = 0xFE80#16) ↔ 0xFE00 ≤ a.toNat ∧ a.toNat ≤ 0xFE9F) ∧
    (0xFE00 ≤ a.toNat → a.toNat ≤ 0xFE9F → decodeAccess .read a d = .rdOam a ∧
      exec (.rdOam a) s = .next { s with phase := .run, rdata := some (s.oam.read (a.toNat - 0xFE00)) })

/-- WR.OAM (R123): one cell, and a read there returns the byte. -/
def Obligations.WrOamStoresOneByte : Prop :=
  ∀ (s : State) (a : Addr) (v : Byte),
    ((a &&& 0xFF80#16 = 0xFE00#16 ∨ a &&& 0xFFE0#16 = 0xFE80#16) ↔ 0xFE00 ≤ a.toNat ∧ a.toNat ≤ 0xFE9F) ∧
    (0xFE00 ≤ a.toNat → a.toNat ≤ 0xFE9F → decodeAccess .write a v = .wrOam a v ∧ ∃ t, exec (.wrOam a v) s = .next t ∧
      t = { s with phase := .run, rdata := t.rdata, oam := t.oam } ∧
      (∀ o, t.oam.read o = if o = a.toNat - 0xFE00 then v else s.oam.read o) ∧
      ∃ u, exec (.rdOam a) t = .next u ∧ u.rdata = some v)

/-- RD.UNUS (R124): the fill byte whatever the state holds, and one `UNUSED_OAM` event. -/
def Obligations.RdUnusReturnsFill : Prop :=
  ∀ (s : State) (a : Addr) (d : Byte),
    ((a &&& 0xFFE0#16 = 0xFEA0#16 ∨ a &&& 0xFFC0#16 = 0xFEC0#16) ↔ 0xFEA0 ≤ a.toNat ∧ a.toNat ≤ 0xFEFF) ∧
    (0xFEA0 ≤ a.toNat → a.toNat ≤ 0xFEFF → decodeAccess .read a d = .rdUnus a ∧
      exec (.rdUnus a) s = .next { s with phase := .run, rdata := some 0xFF, diags := s.diags ++ [⟨a, .unusedOam⟩] })

/-- WR.UNUS (R125): no state change but the event; `OAM` is not reached, and a read still returns the
fill byte. -/
def Obligations.WrUnusIsDropped : Prop :=
  ∀ (s : State) (a : Addr) (v : Byte),
    ((a &&& 0xFFE0#16 = 0xFEA0#16 ∨ a &&& 0xFFC0#16 = 0xFEC0#16) ↔ 0xFEA0 ≤ a.toNat ∧ a.toNat ≤ 0xFEFF) ∧
    (0xFEA0 ≤ a.toNat → a.toNat ≤ 0xFEFF → decodeAccess .write a v = .wrUnus a v ∧ ∃ t, exec (.wrUnus a v) s = .next t ∧
      t = { s with phase := .run, rdata := t.rdata, diags := s.diags ++ [⟨a, .unusedOam⟩] } ∧
      ∃ u, exec (.rdUnus a) t = .next u ∧ u.rdata = some 0xFF)

/-- Aliasing (R57). A write through the echo range or the primary range is seen by a read through the other; two
addresses name one cell only as an echo pair or, in ROM, when the effective bank is 0; `ram_bank` values equal modulo
`RAM_BANKS` select one RAM bank. -/
def Obligations.OnlyEchoPairsShareWritableCells : Prop :=
  (∀ (s : State) (a : Addr) (v : Byte), 0xE000 ≤ a.toNat → a.toNat ≤ 0xFDFF →
    (∃ t u, exec (.wrEcho a v) s = .next t ∧ exec (.rdWram (a - 0x2000#16)) t = .next u ∧ u.rdata = some v) ∧
    (∃ t u, exec (.wrWram (a - 0x2000#16) v) s = .next t ∧ exec (.rdEcho a) t = .next u ∧ u.rdata = some v) ∧
    (∃ o, o ≤ 0x1DFF ∧ ∀ i, s.resolve a i = .wramCell o ∧ s.resolve (a - 0x2000#16) i = .wramCell o)) ∧
  (∀ (s : State) (a : Addr) (i : Intent), a.toNat ≤ 0x3FFF → s.romBank.toNat % s.cfg.romBanks = 0 →
    s.resolve (a + 0x4000#16) i = s.resolve a i) ∧
  (∀ (s : State) (a b : Addr) (i : Intent) (o : Nat), a.toNat < b.toNat → (s.resolve a i).offset = some o →
    s.resolve a i = s.resolve b i →
    (0xC000 ≤ a.toNat ∧ a.toNat ≤ 0xDDFF ∧ b.toNat = a.toNat + 0x2000) ∨
    (a.toNat ≤ 0x3FFF ∧ b.toNat = a.toNat + 0x4000 ∧ s.romBank.toNat % s.cfg.romBanks = 0)) ∧
  (∀ (s : State) (a : Addr) (r : BitVec 4), r.toNat % s.cfg.ramBanks = s.ramBank.toNat % s.cfg.ramBanks →
    ({ s with ramBank := r } : State).translateRam a = s.translateRam a)

/-- Round trip (document section 8 item 8): in VRAM, WRAM, the echo range, OAM and accessible cartridge RAM a byte
written is the byte read back, by two steps of the machine. That the two words wait in a queue of the state is the model's
choice (DESIGN CHOICE, notes/assumptions/1.md). -/
def Obligations.WriteThenReadReturnsTheByte : Prop :=
  ∀ (s : State) (a : Addr) (v d : Byte) (rest : List BusWord),
    ((0x8000 ≤ a.toNat ∧ a.toNat ≤ 0x9FFF) ∨ (0xC000 ≤ a.toNat ∧ a.toNat ≤ 0xFE9F) ∨
      (0xA000 ≤ a.toNat ∧ a.toNat ≤ 0xBFFF ∧ s.ramEnable = true ∧ 0 < s.cfg.ramBanks)) →
    s.pending = packWord .write a v :: packWord .read a d :: rest →
    ∃ t u, step s = .next t ∧ step t = .next u ∧ u.rdata = some v

/-- A write changes no other cell: a write at `a` (not a bank-control write, not a handler) leaves what is read at every
address that does not name the same cell (20_memory.md section 4). -/
def Obligations.AWriteLeavesEveryOtherCell : Prop :=
  ∀ (s : State) (a b : Addr) (v d : Byte), 0x8000 ≤ a.toNat → a.toNat ≤ 0xFEFF → b.toNat ≤ 0xFEFF →
    (s.resolve a .write = .unmapped ∨ s.resolve a .write ≠ s.resolve b .read) →
    ∃ before written after byte, exec (decodeAccess .read b d) s = .next before ∧ before.rdata = some byte ∧
      exec (decodeAccess .write a v) s = .next written ∧ exec (decodeAccess .read b d) written = .next after ∧
      after.rdata = some byte

/-! ### MMIO -/

/-- RD.MMIO (42_mmio_table.md section 3). The byte a handler answers is a free value (decision D23), passed to `rdata`
unchanged. Its form, the constant `Config.handlerByte` applied to a counter that goes up by one at each call and to the
handler's number, is the model's choice (DESIGN CHOICE, notes/assumptions/4.md). -/
def Obligations.RdMmioCallsTheHandlerOrFills : Prop :=
  ∀ (s : State) (a : Addr) (d : Byte),
    (a &&& 0xFF00#16 = 0xFF00#16 ↔ 0xFF00 ≤ a.toNat) ∧
    (0xFF00 ≤ a.toNat → decodeAccess .read a d = .rdMmio a ∧
      (∀ h, s.handlerAt a = some h → exec (.rdMmio a) s = .next { s with
        phase := .run
        rdata := some (Config.handlerByte s.draws h.id)
        draws := s.draws + 1
        dispatches := s.dispatches ++ [.read h] }) ∧
      (s.handlerAt a = none → exec (.rdMmio a) s = .next { s with
        phase := .run
        rdata := some 0xFF
        diags := s.diags ++ [⟨a, .unmapped⟩] }))

/-- WR.MMIO (R196): the handler's effect once with the byte, or one event and a write that a later read does not see. -/
def Obligations.WrMmioCallsTheHandlerOrDrops : Prop :=
  ∀ (s : State) (a : Addr) (v : Byte),
    (a &&& 0xFF00#16 = 0xFF00#16 ↔ 0xFF00 ≤ a.toNat) ∧
    (0xFF00 ≤ a.toNat → decodeAccess .write a v = .wrMmio a v ∧
      (∀ h, s.handlerAt a = some h → ∃ t, exec (.wrMmio a v) s = .next t ∧
        t = { s with phase := .run, rdata := t.rdata, dispatches := s.dispatches ++ [.write h v] }) ∧
      (s.handlerAt a = none → ∃ t, exec (.wrMmio a v) s = .next t ∧
        t = { s with phase := .run, rdata := t.rdata, diags := s.diags ++ [⟨a, .unmapped⟩] } ∧
        ∃ u, exec (.rdMmio a) t = .next u ∧ u.rdata = some 0xFF))

/-! ### The facade -/

/-- The READ transaction `read(addr)` is the nine READ operations taken together (R210): it writes no state of the block
but `phase`, and returns exactly one byte. -/
def Obligations.ReadTransactionIsTheNineReads : Prop :=
  ∀ (s : State) (a : Addr) (d : Byte),
    exec (decodeAccess .read a d) s = .next (s.facadeRead a) ∧
    (∃ b, (s.facadeRead a).rdata = some b) ∧
    s.facadeRead a = { s with
      phase := .run
      rdata := (s.facadeRead a).rdata
      dispatches := (s.facadeRead a).dispatches
      diags := (s.facadeRead a).diags
      draws := (s.facadeRead a).draws }

/-- The WRITE transaction `write(addr, v)` is the twelve WRITE operations taken together (R211). -/
def Obligations.WriteTransactionIsTheTwelveWrites : Prop :=
  ∀ (s : State) (a : Addr) (v : Byte), exec (decodeAccess .write a v) s = .next (s.facadeWrite a v)

/-- `rdata` is present after a READ and absent after a WRITE (00_scope.md section 4, decision D1; as a latch it is the
model's own, notes/assumptions/3.md), and every transaction leaves `phase = RUN`. -/
def Obligations.WriteLeavesNoReadData : Prop :=
  ∀ (i : Instr) (s : State), ∃ t, exec i s = .next t ∧ t.phase = .run ∧
    (i.intent = .read → ∃ b, t.rdata = some b) ∧ (i.intent = .write → t.rdata = none)

/-- Who changes what (R37): a READ changes no state of the block but `phase`; a WRITE changes at most one of one field of
one bank register, one storage cell (the one its address resolves to), or, through a handler, external device state. -/
def Obligations.AWriteChangesAtMostOneThing : Prop :=
  ∀ (i : Instr) (s : State), i.wf = true → ∃ t, exec i s = .next t ∧
    (i.intent = .read → t = { s with phase := .run, rdata := t.rdata, dispatches := t.dispatches, diags := t.diags, draws := t.draws }) ∧
    (i.intent = .write →
      (t = { s with phase := .run, rdata := t.rdata, diags := t.diags, romBank := t.romBank } ∧ i.addr.toNat ≤ 0x7FFF ∧
        (t.romBank.toNat / 0x100 = s.romBank.toNat / 0x100 ∨ t.romBank.toNat % 0x100 = s.romBank.toNat % 0x100)) ∨
      (t = { s with phase := .run, rdata := t.rdata, diags := t.diags, ramBank := t.ramBank } ∧ i.addr.toNat ≤ 0x7FFF) ∨
      (t = { s with phase := .run, rdata := t.rdata, diags := t.diags, ramEnable := t.ramEnable } ∧ i.addr.toNat ≤ 0x7FFF) ∨
      (∃ o, s.resolve i.addr .write = .ramCell o ∧ t = { s with phase := .run, rdata := t.rdata, diags := t.diags, sram := t.sram } ∧
        ∀ p, p ≠ o → t.sram.read p = s.sram.read p) ∨
      (∃ o, s.resolve i.addr .write = .vramCell o ∧ t = { s with phase := .run, rdata := t.rdata, diags := t.diags, vram := t.vram } ∧
        ∀ p, p ≠ o → t.vram.read p = s.vram.read p) ∨
      (∃ o, s.resolve i.addr .write = .wramCell o ∧ t = { s with phase := .run, rdata := t.rdata, diags := t.diags, wram := t.wram } ∧
        ∀ p, p ≠ o → t.wram.read p = s.wram.read p) ∨
      (∃ o, s.resolve i.addr .write = .oamCell o ∧ t = { s with phase := .run, rdata := t.rdata, diags := t.diags, oam := t.oam } ∧
        ∀ p, p ≠ o → t.oam.read p = s.oam.read p) ∨
      (∃ h, s.resolve i.addr .write = .mmioHandler h ∧
        t = { s with phase := .run, rdata := t.rdata, dispatches := s.dispatches ++ [.write h i.data] }) ∨
      t = { s with phase := .run, rdata := t.rdata, diags := t.diags })

/-! ### Invariants -/

/-- The invariant holds after reset, of the model's `State.reset` and of the reset state of every configuration. -/
def Obligations.ResetSatisfiesTheInvariant : Prop :=
  State.reset.Inv ∧
  ∀ (c : Cfg) (rom : Memory) (init : InitContents), 1 ≤ c.romBanks → rom.wf → rom.within (romSizeOf c) → init.fits c →
    (State.atReset c rom init).Inv

/-- Every step keeps the invariant, from every state that has it: storage stays canonical and inside its sizes, the
handler table canonical and in its window, variant `NONE` keeps its bank registers, and the assembly phase is untouched. -/
def Obligations.StepKeepsTheInvariant : Prop :=
  ∀ s t : State, s.Inv → step s = .next t → t.Inv

/-- Every state a machine can be in, by LOAD, REGISTER, issued transactions and steps, has the invariant. That issued
words wait in a queue, and that REGISTER is still accepted while the first of them waits, are the model's choices (DESIGN
CHOICE, notes/assumptions/1.md and 20.md). -/
def Obligations.ReachableStatesSatisfyTheInvariant : Prop :=
  ∀ s : State, Reachable s → s.Inv

/-- No step changes the configuration, `ROM` or the handler table, and the run phase is never left (10_state.md sections 1,
4 and 5; the latch is decision D17). That `phase` latches when a transaction is answered, not when it is issued, is the
model's choice (DESIGN CHOICE, notes/assumptions/20.md). -/
def Obligations.StepKeepsConfigurationRomAndHandlers : Prop :=
  ∀ s : State, ∃ t, step s = .next t ∧ t.cfg = s.cfg ∧ t.rom = s.rom ∧ t.ht = s.ht ∧
    (s.phase = .run → t.phase = .run) ∧ (s.pending ≠ [] → t.phase = .run)

/-- The unreachable cells are invisible: two machines that differ only in `WRAM[0x2000..]` and `OAM[0xA0..]` answer every
transaction alike and still differ only there (10_state.md sections 4 and 6; the fixed mapping is decision D12, the
unreachable OAM bytes are C1). -/
def Obligations.UnreachableCellsAreInvisible : Prop :=
  ∀ s t s' : State, s.sameReachable t → step s = .next s' →
    ∃ t', step t = .next t' ∧ s'.sameReachable t' ∧ t'.rdata = s'.rdata ∧ t'.diags = s'.diags ∧
      t'.dispatches = s'.dispatches ∧
      (∀ o, 0x2000 ≤ o → t'.wram.read o = t.wram.read o) ∧ (∀ o, 0xA0 ≤ o → t'.oam.read o = t.oam.read o)

/-! ### Host operations -/

/-- LOAD pads (43_facade.md section 2; lengths above one bank are decision D18): a whole number of banks, at least one,
the image first and 0xFF after it; nothing but the header decides whether it loads. -/
def Obligations.LoadPadsTheImage : Prop :=
  ∀ (image : List Byte) (init : InitContents) (s : State), load (some image) init = .ok s →
    1 ≤ s.cfg.romBanks ∧ image.length ≤ s.cfg.romBanks * 0x4000 ∧
    (image.length ≤ 0x4000 → s.cfg.romBanks = 1) ∧ (0x4000 < image.length → s.cfg.romBanks * 0x4000 < image.length + 0x4000) ∧
    (∀ i b, image[i]? = some b → s.rom.read i = b) ∧ (∀ i, image.length ≤ i → s.rom.read i = 0xFF)

/-- LOAD's outcome by the header bytes, errors in their order (43_facade.md section 2, 60_exceptions.md section 2; the
offsets and tables are decision D19, the cases D20, the order D28). That `InvalidHeader` records which case holds, and that
LOAD takes the initial RAM contents beside the image, are the model's choices (DESIGN CHOICE, notes/assumptions/13.md). -/
def Obligations.LoadReadsTheHeader : Prop :=
  ∀ (image : List Byte) (init : InitContents),
    let type := (padImage image).read 0x0147
    let ramsize := (padImage image).read 0x0149
    let noneTypes : List Byte := [0x00, 0x08, 0x09]
    let bankedTypes : List Byte := [0x19, 0x1A, 0x1B]
    let ramTypes : List Byte := [0x08, 0x09, 0x1A, 0x1B]
    let sizes : List (Byte × Nat) := [(0x00, 0), (0x02, 1), (0x03, 4), (0x04, 16), (0x05, 8)]
    load none init = .error .io ∧
    (type ∉ noneTypes ++ bankedTypes → load (some image) init = .error (.invalidHeader .unknownType)) ∧
    (type ∈ noneTypes ++ bankedTypes → ramsize ∉ sizes.map Prod.fst →
      load (some image) init = .error (.invalidHeader .unknownRamSize)) ∧
    (type ∈ ramTypes → ramsize = 0x00 → load (some image) init = .error (.invalidHeader .ramRequired)) ∧
    (∀ n, type ∈ noneTypes ++ bankedTypes → (ramsize, n) ∈ sizes → (type ∈ ramTypes → n ≠ 0) →
      load (some image) init = .ok (State.atReset
        ⟨if type ∈ noneTypes then .none else .banked, romBanksOf image.length, if type ∈ ramTypes then n else 0⟩
        (padImage image) init))

/-- The reset values a successful LOAD leaves (10_state.md section 7; decisions D8, D17, D21, D26), for every image and
every initial RAM content. -/
def Obligations.LoadLeavesTheResetValues : Prop :=
  ∀ (image : Option (List Byte)) (init : InitContents) (s : State), load image init = .ok s →
    s.romBank = 1 ∧ s.ramBank = 0 ∧ (s.cfg.variant = .banked → s.ramEnable = false) ∧
    (s.cfg.variant = .none → s.ramEnable = true) ∧ s.sram = init.sram ∧ s.vram = init.vram ∧ s.wram = init.wram ∧
    s.oam = init.oam ∧ (∀ a, s.handlerAt a = none) ∧ s.phase = .assembly

/-- REGISTER (42_mmio_table.md section 2; decisions D16, D17): the three errors in their order, and on success one entry of
the table and nothing else. That it is not late while the first transaction is issued and not yet answered is the model's
choice (DESIGN CHOICE, notes/assumptions/20.md). -/
def Obligations.RegisterSetsOneEntryOrFails : Prop :=
  ∀ (s : State) (a : Addr) (h : Handler),
    (s.phase = .run → s.register a h = .error (.lateRegistration a)) ∧
    (s.phase = .assembly → a.toNat < 0xFF00 → s.register a h = .error (.addressOutOfRange a)) ∧
    (∀ g, s.phase = .assembly → 0xFF00 ≤ a.toNat → s.handlerAt a = some g →
      s.register a h = .error (.duplicateHandler a)) ∧
    (s.phase = .assembly → 0xFF00 ≤ a.toNat → s.handlerAt a = none → ∃ t, s.register a h = .ok t ∧
      t = { s with ht := t.ht } ∧ ∀ b, t.handlerAt b = if b = a then some h else s.handlerAt b)

/-- REGISTER of a range (42_mmio_table.md section 2, decision D16): all or nothing, the lowest offending address is
reported; a one-address range is the one-address form. When a call is late is the model's choice in the queue (DESIGN
CHOICE, notes/assumptions/20.md). -/
def Obligations.RegisterRangeIsAllOrNothing : Prop :=
  ∀ (s : State) (a b : Addr) (h : Handler), a.toNat ≤ b.toNat →
    (s.phase = .run → s.registerRange a b h = .error (.lateRegistration a)) ∧
    (s.phase = .assembly → a.toNat < 0xFF00 → s.registerRange a b h = .error (.addressOutOfRange a)) ∧
    (∀ x g, s.phase = .assembly → 0xFF00 ≤ a.toNat → a.toNat ≤ x.toNat → x.toNat ≤ b.toNat → s.handlerAt x = some g →
      (∀ y : Addr, a.toNat ≤ y.toNat → y.toNat < x.toNat → s.handlerAt y = none) →
      s.registerRange a b h = .error (.duplicateHandler x)) ∧
    (s.phase = .assembly → 0xFF00 ≤ a.toNat → (∀ y : Addr, a.toNat ≤ y.toNat → y.toNat ≤ b.toNat → s.handlerAt y = none) →
      ∃ t, s.registerRange a b h = .ok t ∧ t = { s with ht := t.ht } ∧
        ∀ y : Addr, t.handlerAt y = if a.toNat ≤ y.toNat ∧ y.toNat ≤ b.toNat then some h else s.handlerAt y) ∧
    s.registerRange a a h = s.register a h

/-- Once a transaction has been answered no handler can be registered, however many steps follow (70_reset_and_hazards.md
section 1; the latch is decision D17). That it is the answer that ends registration, not the issuing, is the model's choice
(DESIGN CHOICE, notes/assumptions/20.md). -/
def Obligations.RegistrationEndsWithTheFirstTransaction : Prop :=
  ∀ (k : Nat) (s t : State) (w : BusWord) (rest : List BusWord), s.pending = w :: rest →
    runSteps (k + 1) s = .next t →
    ∀ (a : Addr) (h : Handler), t.register a h = .error (.lateRegistration a)

/-- The boot order (70_reset_and_hazards.md section 1), for ranges `first..last` with `first` at most `last`, the only ones
42_mmio_table.md section 2 gives (notes/assumptions/12.md says what the model does with others): a load error ends the boot
with that error; the first REGISTER call that fails ends it with its error, whatever calls follow; a boot that succeeds
leaves what LOAD leaves but for the handler table, in which each address holds the handler of the call that covers it and
every other address none; and a boot whose calls are all in the window and cover no address twice succeeds. The last
clause, that RESET is the boot again, holds by definition (43_facade.md section 2, decision D24; notes/assumptions/18.md).
LOAD's second argument is the model's choice (DESIGN CHOICE, notes/assumptions/13.md). -/
def Obligations.BootLeavesTheLoadedMachineWithItsHandlers : Prop :=
  ∀ (image : Option (List Byte)) (init : InitContents) (regs : List Registration),
    (∀ r ∈ regs, r.first.toNat ≤ r.last.toNat) →
    (∀ e, load image init = .error e → boot image init regs = .error (.load e)) ∧
    (∀ before r after u e, regs = before ++ r :: after → boot image init before = .ok u →
      u.registerRange r.first r.last r.handler = .error e → boot image init regs = .error (.config e)) ∧
    (∀ s t, load image init = .ok s → boot image init regs = .ok t → t = { s with ht := t.ht } ∧ t.phase = .assembly ∧
      ∀ (y : Addr) (h : Handler), t.handlerAt y = some h ↔
        ∃ r ∈ regs, r.first.toNat ≤ y.toNat ∧ y.toNat ≤ r.last.toNat ∧ r.handler = h) ∧
    (∀ s, load image init = .ok s → (∀ r ∈ regs, 0xFF00 ≤ r.first.toNat) →
      regs.Pairwise (fun r q => r.last.toNat < q.first.toNat ∨ q.last.toNat < r.first.toNat) →
      ∃ t, boot image init regs = .ok t) ∧
    resetMachine image init regs = boot image init regs
end

