-- ==== Sys2Proof/Laws/Decode.lean ====
section
/-! SUPPORT. The laws of the transaction word: its fields as numbers, what a match/mask row selects, and the range of
addresses behind each region. -/

namespace Sys2Proof

/-! ### Fields -/

theorem addrField_toNat (w : BusWord) : (addrField w).toNat = w.toNat / 0x100 % 0x10000 := by
  simp [addrField, BitVec.extractLsb'_toNat, Nat.shiftRight_eq_div_pow]

theorem dataField_toNat (w : BusWord) : (dataField w).toNat = w.toNat % 0x100 := by
  simp [dataField, BitVec.extractLsb'_toNat]

theorem intentField_eq (w : BusWord) : intentField w = if 0x1000000 ≤ w.toNat then .write else .read := by
  have h : w.getLsbD 24 = decide (0x1000000 ≤ w.toNat) := by
    have hw := w.isLt
    rw [BitVec.getLsbD, Nat.testBit_eq_decide_div_mod_eq]
    exact decide_eq_decide.2 (by omega)
  unfold intentField
  rw [h]
  simp only [decide_eq_true_eq]

theorem packWord_toNat (i : Intent) (a : Addr) (d : Byte) :
    (packWord i a d).toNat = i.code * 0x1000000 + a.toNat * 0x100 + d.toNat := by
  have ha := a.isLt
  have hd := d.isLt
  unfold packWord
  rw [BitVec.toNat_ofNat, Nat.mod_eq_of_lt]
  cases i <;> simp only [Intent.code] <;> omega

@[simp] theorem intentField_packWord (i : Intent) (a : Addr) (d : Byte) : intentField (packWord i a d) = i := by
  have ha := a.isLt
  have hd := d.isLt
  rw [intentField_eq, packWord_toNat]
  cases i
  · rw [if_neg (by simp only [Intent.code]; omega)]
  · rw [if_pos (by simp only [Intent.code]; omega)]

@[simp] theorem addrField_packWord (i : Intent) (a : Addr) (d : Byte) : addrField (packWord i a d) = a := by
  have ha := a.isLt
  have hd := d.isLt
  apply BitVec.eq_of_toNat_eq
  rw [addrField_toNat, packWord_toNat]
  cases i <;> simp only [Intent.code] <;> omega

@[simp] theorem dataField_packWord (i : Intent) (a : Addr) (d : Byte) : dataField (packWord i a d) = d := by
  have ha := a.isLt
  have hd := d.isLt
  apply BitVec.eq_of_toNat_eq
  rw [dataField_toNat, packWord_toNat]
  cases i <;> simp only [Intent.code] <;> omega

/-- The word is its three fields packed. -/
theorem packWord_fields (w : BusWord) : packWord (intentField w) (addrField w) (dataField w) = w := by
  have hw := w.isLt
  apply BitVec.eq_of_toNat_eq
  rw [packWord_toNat, intentField_eq, addrField_toNat, dataField_toNat]
  split <;> simp only [Intent.code] <;> omega

/-! ### Match and mask -/

/-- Masking with the top bits of an `n`-bit number clears the `k` low bits. -/
theorem and_highMask {n k x : Nat} (hx : x < 2 ^ n) (hk : k ≤ n) : x &&& ((2 ^ (n - k) - 1) <<< k) = x / 2 ^ k * 2 ^ k := by
  rw [← Nat.shiftRight_eq_div_pow, ← Nat.shiftLeft_eq]
  apply Nat.eq_of_testBit_eq
  intro i
  rw [Nat.testBit_and, Nat.testBit_shiftLeft, Nat.testBit_shiftLeft, Nat.testBit_shiftRight, Nat.testBit_two_pow_sub_one]
  by_cases hi : k ≤ i
  · have e : k + (i - k) = i := by omega
    simp only [e, hi, decide_true, Bool.true_and]
    by_cases hin : i < n
    · have : i - k < n - k := by omega
      simp [this]
    · rw [Nat.testBit_lt_two_pow (lt_of_lt_of_le hx (Nat.pow_le_pow_right (by omega) (by omega)))]
      simp
  · simp [hi]

/-- A mask of an address's high bits selects the aligned block `base .. base + 2^k - 1`. -/
theorem addr_and_mask {a m p : Addr} {k : Nat} (hk : k ≤ 16) (hm : m.toNat = (2 ^ (16 - k) - 1) <<< k) :
    a &&& m = p ↔ a.toNat / 2 ^ k * 2 ^ k = p.toNat := by
  rw [← BitVec.toNat_inj, BitVec.toNat_and, hm, and_highMask a.isLt hk]

/-- A mask of a word's high bits selects the aligned block `pattern .. pattern + 2^k - 1`. -/
theorem word_and_mask {w m p : BusWord} {k : Nat} (hk : k ≤ 25) (hm : m.toNat = (2 ^ (25 - k) - 1) <<< k) :
    w &&& m = p ↔ w.toNat / 2 ^ k * 2 ^ k = p.toNat := by
  rw [← BitVec.toNat_inj, BitVec.toNat_and, hm, and_highMask w.isLt hk]

/-! ### Regions -/

theorem inWindow_iff {lo hi : Nat} {a : Addr} : inWindow lo hi a = true ↔ lo ≤ a.toNat ∧ a.toNat ≤ hi := by
  simp [inWindow]

theorem region_rom0 {a : Addr} : region a = .rom0 ↔ a.toNat ≤ 0x3FFF := by
  unfold region
  repeat' split
  all_goals (simp; omega)

theorem region_romx {a : Addr} : region a = .romx ↔ 0x4000 ≤ a.toNat ∧ a.toNat ≤ 0x7FFF := by
  unfold region
  repeat' split
  all_goals (simp; omega)

theorem region_vram {a : Addr} : region a = .vram ↔ 0x8000 ≤ a.toNat ∧ a.toNat ≤ 0x9FFF := by
  unfold region
  repeat' split
  all_goals (simp; omega)

theorem region_cram {a : Addr} : region a = .cram ↔ 0xA000 ≤ a.toNat ∧ a.toNat ≤ 0xBFFF := by
  unfold region
  repeat' split
  all_goals (simp; omega)

theorem region_wram {a : Addr} : region a = .wram ↔ 0xC000 ≤ a.toNat ∧ a.toNat ≤ 0xDFFF := by
  unfold region
  repeat' split
  all_goals (simp; omega)

theorem region_echo {a : Addr} : region a = .echo ↔ 0xE000 ≤ a.toNat ∧ a.toNat ≤ 0xFDFF := by
  unfold region
  repeat' split
  all_goals (simp; omega)

theorem region_oam {a : Addr} : region a = .oam ↔ 0xFE00 ≤ a.toNat ∧ a.toNat ≤ 0xFE9F := by
  unfold region
  repeat' split
  all_goals (simp; omega)

theorem region_unus {a : Addr} : region a = .unus ↔ 0xFEA0 ≤ a.toNat ∧ a.toNat ≤ 0xFEFF := by
  unfold region
  repeat' split
  all_goals (simp; omega)

theorem region_mmio {a : Addr} : region a = .mmio ↔ 0xFF00 ≤ a.toNat := by
  unfold region
  repeat' split
  all_goals (simp; omega)

/-! ### The decoder's instructions -/

theorem decodeRead_wf (a : Addr) : (decodeRead a).wf = true := by
  have ha := a.isLt
  unfold decodeRead
  split <;> rename_i h <;> simp only [Instr.wf, inWindow_iff]
  · exact ⟨Nat.zero_le _, region_rom0.1 h⟩
  · exact region_romx.1 h
  · exact region_vram.1 h
  · exact region_cram.1 h
  · exact region_wram.1 h
  · exact region_echo.1 h
  · exact region_oam.1 h
  · exact region_unus.1 h
  · exact ⟨region_mmio.1 h, by omega⟩

theorem decodeWrite_wf (a : Addr) (d : Byte) : (decodeWrite a d).wf = true := by
  have ha := a.isLt
  unfold decodeWrite
  split <;> rename_i h
  · have := region_rom0.1 h
    repeat' split
    all_goals simp only [Instr.wf, inWindow_iff]; omega
  · have := region_romx.1 h
    repeat' split
    all_goals simp only [Instr.wf, inWindow_iff]; omega
  · exact inWindow_iff.2 (region_vram.1 h)
  · exact inWindow_iff.2 (region_cram.1 h)
  · exact inWindow_iff.2 (region_wram.1 h)
  · exact inWindow_iff.2 (region_echo.1 h)
  · exact inWindow_iff.2 (region_oam.1 h)
  · exact inWindow_iff.2 (region_unus.1 h)
  · exact inWindow_iff.2 ⟨region_mmio.1 h, by omega⟩

@[simp] theorem decodeRead_addr (a : Addr) : (decodeRead a).addr = a := by
  unfold decodeRead
  split <;> rfl

@[simp] theorem decodeWrite_addr (a : Addr) (d : Byte) : (decodeWrite a d).addr = a := by
  unfold decodeWrite
  repeat' split
  all_goals rfl

@[simp] theorem decodeRead_intent (a : Addr) : (decodeRead a).intent = .read := by
  unfold decodeRead
  split <;> rfl

@[simp] theorem decodeWrite_intent (a : Addr) (d : Byte) : (decodeWrite a d).intent = .write := by
  unfold decodeWrite
  repeat' split
  all_goals rfl

@[simp] theorem decodeRead_data (a : Addr) : (decodeRead a).data = 0x00 := by
  unfold decodeRead
  split <;> rfl

@[simp] theorem decodeWrite_data (a : Addr) (d : Byte) : (decodeWrite a d).data = d := by
  unfold decodeWrite
  repeat' split
  all_goals rfl

/-! ### The operation an address selects -/

section
variable {a : Addr} (d : Byte)

theorem decodeRead_rom0 (h : a.toNat ≤ 0x3FFF) : decodeRead a = .rdRom0 a := by
  rw [decodeRead, region_rom0.2 h]

theorem decodeRead_romx (lo : 0x4000 ≤ a.toNat) (hi : a.toNat ≤ 0x7FFF) : decodeRead a = .rdRomx a := by
  rw [decodeRead, region_romx.2 ⟨lo, hi⟩]

theorem decodeRead_vram (lo : 0x8000 ≤ a.toNat) (hi : a.toNat ≤ 0x9FFF) : decodeRead a = .rdVram a := by
  rw [decodeRead, region_vram.2 ⟨lo, hi⟩]

theorem decodeRead_cram (lo : 0xA000 ≤ a.toNat) (hi : a.toNat ≤ 0xBFFF) : decodeRead a = .rdCram a := by
  rw [decodeRead, region_cram.2 ⟨lo, hi⟩]

theorem decodeRead_wram (lo : 0xC000 ≤ a.toNat) (hi : a.toNat ≤ 0xDFFF) : decodeRead a = .rdWram a := by
  rw [decodeRead, region_wram.2 ⟨lo, hi⟩]

theorem decodeRead_echo (lo : 0xE000 ≤ a.toNat) (hi : a.toNat ≤ 0xFDFF) : decodeRead a = .rdEcho a := by
  rw [decodeRead, region_echo.2 ⟨lo, hi⟩]

theorem decodeRead_oam (lo : 0xFE00 ≤ a.toNat) (hi : a.toNat ≤ 0xFE9F) : decodeRead a = .rdOam a := by
  rw [decodeRead, region_oam.2 ⟨lo, hi⟩]

theorem decodeRead_unus (lo : 0xFEA0 ≤ a.toNat) (hi : a.toNat ≤ 0xFEFF) : decodeRead a = .rdUnus a := by
  rw [decodeRead, region_unus.2 ⟨lo, hi⟩]

theorem decodeRead_mmio (h : 0xFF00 ≤ a.toNat) : decodeRead a = .rdMmio a := by
  rw [decodeRead, region_mmio.2 h]

theorem decodeWrite_ramg (h : a.toNat ≤ 0x1FFF) : decodeWrite a d = .wrRamg a d := by
  rw [decodeWrite, region_rom0.2 (by omega)]
  exact if_pos h

theorem decodeWrite_romb0 (lo : 0x2000 ≤ a.toNat) (hi : a.toNat ≤ 0x2FFF) : decodeWrite a d = .wrRomb0 a d := by
  rw [decodeWrite, region_rom0.2 (by omega)]
  exact (if_neg (by omega)).trans (if_pos hi)

theorem decodeWrite_romb1 (lo : 0x3000 ≤ a.toNat) (hi : a.toNat ≤ 0x3FFF) : decodeWrite a d = .wrRomb1 a d := by
  rw [decodeWrite, region_rom0.2 hi]
  exact (if_neg (by omega)).trans (if_neg (by omega))

theorem decodeWrite_ramb (lo : 0x4000 ≤ a.toNat) (hi : a.toNat ≤ 0x5FFF) : decodeWrite a d = .wrRamb a d := by
  rw [decodeWrite, region_romx.2 ⟨lo, by omega⟩]
  exact if_pos hi

theorem decodeWrite_rsv6 (lo : 0x6000 ≤ a.toNat) (hi : a.toNat ≤ 0x7FFF) : decodeWrite a d = .wrRsv6 a d := by
  rw [decodeWrite, region_romx.2 ⟨by omega, hi⟩]
  exact if_neg (by omega)

theorem decodeWrite_vram (lo : 0x8000 ≤ a.toNat) (hi : a.toNat ≤ 0x9FFF) : decodeWrite a d = .wrVram a d := by
  rw [decodeWrite, region_vram.2 ⟨lo, hi⟩]

theorem decodeWrite_cram (lo : 0xA000 ≤ a.toNat) (hi : a.toNat ≤ 0xBFFF) : decodeWrite a d = .wrCram a d := by
  rw [decodeWrite, region_cram.2 ⟨lo, hi⟩]

theorem decodeWrite_wram (lo : 0xC000 ≤ a.toNat) (hi : a.toNat ≤ 0xDFFF) : decodeWrite a d = .wrWram a d := by
  rw [decodeWrite, region_wram.2 ⟨lo, hi⟩]

theorem decodeWrite_echo (lo : 0xE000 ≤ a.toNat) (hi : a.toNat ≤ 0xFDFF) : decodeWrite a d = .wrEcho a d := by
  rw [decodeWrite, region_echo.2 ⟨lo, hi⟩]

theorem decodeWrite_oam (lo : 0xFE00 ≤ a.toNat) (hi : a.toNat ≤ 0xFE9F) : decodeWrite a d = .wrOam a d := by
  rw [decodeWrite, region_oam.2 ⟨lo, hi⟩]

theorem decodeWrite_unus (lo : 0xFEA0 ≤ a.toNat) (hi : a.toNat ≤ 0xFEFF) : decodeWrite a d = .wrUnus a d := by
  rw [decodeWrite, region_unus.2 ⟨lo, hi⟩]

theorem decodeWrite_mmio (h : 0xFF00 ≤ a.toNat) : decodeWrite a d = .wrMmio a d := by
  rw [decodeWrite, region_mmio.2 h]

end

end Sys2Proof
end

