-- ==== Sys2Proof/Laws/Memory.lean ====
section
/-! SUPPORT. The laws of sparse lists and of storage regions: a read after a write, the canonical form every operation
keeps, and what a region made from a byte string holds. -/

namespace Sys2Proof.Machine

variable {β : Type}

theorem sparseFind_insert (l : List (Nat × β)) (k j : Nat) (v : β) :
    sparseFind (sparseInsert l k v) j = if j = k then some v else sparseFind l j := by
  induction l with
  | nil => simp [sparseInsert, sparseFind, eq_comm]
  | cons e rest ih =>
    obtain ⟨i, w⟩ := e
    simp only [sparseInsert]
    split
    · simp [sparseFind, eq_comm (a := k)]
    · split
      · subst_vars
        simp only [sparseFind, eq_comm (a := j)]
        split <;> simp_all
      · simp only [sparseFind, ih]
        split <;> split <;> simp_all

theorem sparseFind_erase (l : List (Nat × β)) (k j : Nat) :
    sparseFind (sparseErase l k) j = if j = k then none else sparseFind l j := by
  induction l with
  | nil => simp [sparseErase, sparseFind]
  | cons e rest ih =>
    obtain ⟨i, w⟩ := e
    simp only [sparseErase, List.filter_cons] at ih ⊢
    by_cases hik : i = k
    · subst hik
      simp only [bne_self_eq_false, Bool.false_eq_true, if_false, ih, sparseFind, eq_comm (a := j)]
      split <;> simp_all
    · simp only [bne_iff_ne, ne_eq, hik, not_false_eq_true, if_true, sparseFind, ih]
      split <;> split <;> simp_all

theorem sparseErase_subset {l : List (Nat × β)} {k : Nat} {c : Nat × β} (h : c ∈ sparseErase l k) : c ∈ l :=
  List.mem_of_mem_filter h

theorem mem_sparseInsert {l : List (Nat × β)} {k : Nat} {v : β} {c : Nat × β} (h : c ∈ sparseInsert l k v) :
    c = (k, v) ∨ c ∈ l := by
  induction l with
  | nil => simpa [sparseInsert] using h
  | cons e rest ih =>
    obtain ⟨i, w⟩ := e
    simp only [sparseInsert] at h
    split at h
    · simpa using h
    · split at h
      · rcases List.mem_cons.1 h with h | h <;> simp [h]
      · rcases List.mem_cons.1 h with h | h
        · simp [h]
        · rcases ih h with h | h <;> simp [h]

theorem sparseSorted_erase {l : List (Nat × β)} (h : sparseSorted l) (k : Nat) : sparseSorted (sparseErase l k) :=
  List.Pairwise.filter _ h

theorem sparseSorted_insert {l : List (Nat × β)} (h : sparseSorted l) (k : Nat) (v : β) :
    sparseSorted (sparseInsert l k v) := by
  induction l with
  | nil => simp [sparseInsert, sparseSorted]
  | cons e rest ih =>
    obtain ⟨i, w⟩ := e
    obtain ⟨h1, h2⟩ := List.pairwise_cons.1 h
    simp only [sparseInsert]
    split
    · refine List.pairwise_cons.2 ⟨fun c hc => ?_, h⟩
      rcases List.mem_cons.1 hc with rfl | hc
      · assumption
      · have := h1 c hc
        simp only at this ⊢
        omega
    · split
      · subst_vars
        exact List.pairwise_cons.2 ⟨h1, h2⟩
      · refine List.pairwise_cons.2 ⟨fun c hc => ?_, ih h2⟩
        rcases mem_sparseInsert hc with rfl | hc
        · simp only
          omega
        · exact h1 c hc

theorem sparseFind_eq_none {l : List (Nat × β)} {k : Nat} (h : ∀ c ∈ l, c.1 ≠ k) : sparseFind l k = none := by
  induction l with
  | nil => rfl
  | cons e rest ih =>
    have := h e (by simp)
    simp only [sparseFind, this, if_false]
    exact ih fun c hc => h c (by simp [hc])

theorem mem_of_sparseFind {l : List (Nat × β)} {k : Nat} {v : β} (h : sparseFind l k = some v) : (k, v) ∈ l := by
  induction l with
  | nil => simp [sparseFind] at h
  | cons e rest ih =>
    obtain ⟨i, w⟩ := e
    simp only [sparseFind] at h
    split at h
    · simp_all
    · simp [ih h]

/-! ### Regions -/

@[simp] theorem Memory.write_unlisted (m : Memory) (o : Nat) (v : Byte) : (m.write o v).unlisted = m.unlisted := by
  unfold Memory.write
  split <;> rfl

/-- A byte read after a write: the byte written at the offset written, the old byte everywhere else. -/
theorem Memory.read_write (m : Memory) (o p : Nat) (v : Byte) :
    (m.write o v).read p = if p = o then v else m.read p := by
  unfold Memory.write Memory.read
  split
  · simp only [sparseFind_erase]
    split <;> simp_all [Memory.unlisted]
  · simp only [sparseFind_insert]
    split <;> simp_all [Memory.unlisted]

theorem Memory.write_wf {m : Memory} (h : m.wf) (o : Nat) (v : Byte) : (m.write o v).wf := by
  refine ⟨?_, fun c hc => ?_⟩
  · unfold Memory.write
    split
    · exact sparseSorted_erase h.1 o
    · exact sparseSorted_insert h.1 o v
  · rw [Memory.write_unlisted]
    unfold Memory.write at hc
    split at hc
    · exact h.2 c (sparseErase_subset hc)
    · rcases mem_sparseInsert hc with rfl | hc
      · assumption
      · exact h.2 c hc

theorem Memory.write_within {m : Memory} {size : Nat} (h : m.within size) {o : Nat} (ho : o < size) (v : Byte) :
    (m.write o v).within size := by
  intro c hc
  unfold Memory.write at hc
  split at hc
  · exact h c (sparseErase_subset hc)
  · rcases mem_sparseInsert hc with rfl | hc
    · exact ho
    · exact h c hc

theorem mem_cellsOf {fill : Byte} {bytes : List Byte} {base : Nat} {c : Host.Cell} (h : c ∈ cellsOf fill base bytes) :
    base ≤ c.1 ∧ c.1 < base + bytes.length ∧ c.2 ≠ fill := by
  induction bytes generalizing base with
  | nil => simp [cellsOf] at h
  | cons b rest ih =>
    simp only [cellsOf] at h
    simp only [List.length_cons]
    split at h
    · obtain ⟨h1, h2, h3⟩ := ih h
      exact ⟨by omega, by omega, h3⟩
    · rcases List.mem_cons.1 h with rfl | h
      · simp only
        refine ⟨by omega, by omega, by assumption⟩
      · obtain ⟨h1, h2, h3⟩ := ih h
        exact ⟨by omega, by omega, h3⟩

theorem Memory.ofBytes_wf (fill : Byte) (bytes : List Byte) : (Memory.ofBytes fill bytes).wf := by
  refine ⟨?_, fun c hc => (mem_cellsOf hc).2.2⟩
  simp only [Memory.ofBytes]
  generalize 0 = base
  induction bytes generalizing base with
  | nil => simp [cellsOf, sparseSorted]
  | cons b rest ih =>
    simp only [cellsOf]
    split
    · exact ih _
    · exact List.pairwise_cons.2 ⟨fun c hc => (mem_cellsOf hc).1, ih _⟩

theorem Memory.ofBytes_within (fill : Byte) (bytes : List Byte) :
    (Memory.ofBytes fill bytes).within bytes.length := fun _ hc => by
  simpa using (mem_cellsOf hc).2.1

/-- A region made from a byte string: its bytes, then `fill`. -/
theorem Memory.read_ofBytes (fill : Byte) (bytes : List Byte) (o : Nat) :
    (Memory.ofBytes fill bytes).read o = bytes[o]?.getD fill := by
  suffices h : ∀ base, (sparseFind (cellsOf fill base bytes) (base + o)).getD fill = bytes[o]?.getD fill by
    simpa [Memory.ofBytes, Memory.read, Memory.unlisted] using h 0
  induction bytes generalizing o with
  | nil => simp [cellsOf, sparseFind]
  | cons b rest ih =>
    intro base
    cases o with
    | zero =>
      simp only [cellsOf]
      split
      · rw [sparseFind_eq_none fun c hc => by have := mem_cellsOf hc; omega]
        simp_all
      · simp [sparseFind]
    | succ o =>
      have hb : base + (o + 1) = base + 1 + o := by omega
      simp only [cellsOf]
      split
      · rw [hb, ih o (base + 1)]
        simp
      · simp only [sparseFind]
        rw [if_neg (by omega), hb, ih o (base + 1)]
        simp

/-- Listed offsets that carry the byte listed there are found. -/
theorem sparseFind_of_mem {l : List (Nat × β)} (hs : sparseSorted l) {k : Nat} {v : β} (h : (k, v) ∈ l) :
    sparseFind l k = some v := by
  induction l with
  | nil => simp at h
  | cons e rest ih =>
    obtain ⟨i, w⟩ := e
    obtain ⟨h1, h2⟩ := List.pairwise_cons.1 hs
    rcases List.mem_cons.1 h with h | h
    · simp_all [sparseFind]
    · have := h1 _ h
      simp only at this
      simp only [sparseFind]
      rw [if_neg (by omega)]
      exact ih h2 h

end Sys2Proof.Machine
end

