-- ==== Sys2Proof/Laws/HostOps.lean ====
section
/-! SUPPORT. What LOAD and REGISTER can do, said once: the shape of a loaded machine, the padding as numbers, the table
after a run of registrations. -/

namespace Sys2Proof.Machine

/-- A machine LOAD answers is the reset state of the configuration the header gives. -/
theorem load_cases {image : Option (List Byte)} {init : InitContents} {s : State} (h : load image init = .ok s) :
    ∃ bytes v r, image = some bytes ∧ readHeader (padImage bytes) = .ok (v, r) ∧
      s = State.atReset ⟨v, romBanksOf bytes.length, r⟩ (padImage bytes) init := by
  unfold load at h
  cases image with
  | none => cases h
  | some bytes =>
    simp only at h
    split at h
    · cases h
    · rename_i v r hh
      cases h
      exact ⟨bytes, v, r, rfl, hh, rfl⟩

theorem romBanksOf_pos (l : Nat) : 1 ≤ romBanksOf l := by
  unfold romBanksOf paddedLength
  omega

theorem le_romBanksOf (l : Nat) : l ≤ romBanksOf l * 0x4000 := by
  unfold romBanksOf paddedLength
  omega

/-- The padded image: its bytes, then the pad byte. -/
theorem padImage_read (image : List Byte) (o : Nat) : (padImage image).read o = image[o]?.getD 0xFF :=
  Memory.read_ofBytes fillByte image o

theorem mem_addressRange {a b x : Addr} : x ∈ addressRange a b ↔ a.toNat ≤ x.toNat ∧ x.toNat ≤ b.toNat := by
  have ha := a.isLt
  have hb := b.isLt
  simp only [addressRange, List.mem_map, List.mem_range]
  constructor
  · rintro ⟨k, hk, rfl⟩
    rw [BitVec.toNat_ofNat, Nat.mod_eq_of_lt (by omega)]
    omega
  · rintro ⟨h1, h2⟩
    refine ⟨x.toNat - a.toNat, by omega, BitVec.eq_of_toNat_eq ?_⟩
    rw [BitVec.toNat_ofNat, Nat.mod_eq_of_lt (by omega)]
    omega

theorem sparseFind_registerAll (as : List Addr) (h : Handler) (t : List (Nat × Handler)) (k : Nat) :
    sparseFind (registerAll t as h) k = if ∃ a ∈ as, a.toNat = k then some h else sparseFind t k := by
  induction as generalizing t with
  | nil => simp [registerAll]
  | cons a as ih =>
    have hcons : registerAll t (a :: as) h = registerAll (sparseInsert t a.toNat h) as h := rfl
    rw [hcons, ih, sparseFind_insert]
    by_cases h1 : ∃ x ∈ as, x.toNat = k
    · obtain ⟨x, hx, e⟩ := h1
      rw [if_pos ⟨x, hx, e⟩, if_pos ⟨x, by simp [hx], e⟩]
    · rw [if_neg h1]
      by_cases h2 : k = a.toNat
      · rw [if_pos h2, if_pos ⟨a, by simp, h2.symm⟩]
      · rw [if_neg h2, if_neg]
        rintro ⟨x, hx, e⟩
        rcases List.mem_cons.1 hx with rfl | hx
        · exact h2 e.symm
        · exact h1 ⟨x, hx, e⟩

theorem sparseSorted_registerAll (as : List Addr) (h : Handler) {t : List (Nat × Handler)} (ht : sparseSorted t) :
    sparseSorted (registerAll t as h) := by
  induction as generalizing t with
  | nil => exact ht
  | cons a as ih => exact ih (sparseSorted_insert ht _ _)

theorem mem_registerAll {as : List Addr} {h : Handler} {t : List (Nat × Handler)} {c : Nat × Handler}
    (hc : c ∈ registerAll t as h) : c ∈ t ∨ ∃ a ∈ as, c = (a.toNat, h) := by
  induction as generalizing t with
  | nil => exact .inl hc
  | cons a as ih =>
    rcases ih hc with h1 | ⟨x, hx, e⟩
    · rcases mem_sparseInsert h1 with rfl | h1
      · exact .inr ⟨a, by simp, rfl⟩
      · exact .inl h1
    · exact .inr ⟨x, by simp [hx], e⟩

@[simp] theorem registerEach_nil (s : State) : registerEach [] s = .ok s := rfl

theorem registerEach_cons_ok {r : Registration} {rest : List Registration} {s u : State}
    (h : s.registerRange r.first r.last r.handler = .ok u) : registerEach (r :: rest) s = registerEach rest u := by
  simp only [registerEach, h]

theorem registerEach_cons_error {r : Registration} {rest : List Registration} {s : State} {e : ConfigError}
    (h : s.registerRange r.first r.last r.handler = .error e) : registerEach (r :: rest) s = .error e := by
  simp only [registerEach, h]

/-- The calls after a run of calls that succeeded start from what that run left. -/
theorem registerEach_append {before after : List Registration} {s u : State} (h : registerEach before s = .ok u) :
    registerEach (before ++ after) s = registerEach after u := by
  induction before generalizing s with
  | nil =>
    cases h
    rfl
  | cons r rest ih =>
    cases hr : s.registerRange r.first r.last r.handler with
    | error e => simp [registerEach_cons_error hr] at h
    | ok v =>
      rw [registerEach_cons_ok hr] at h
      rw [List.cons_append, registerEach_cons_ok hr]
      exact ih h

/-- What a successful REGISTER of a range found and did. -/
theorem registerRange_cases {s t : State} {a b : Addr} {h : Handler} (e : s.registerRange a b h = .ok t) :
    s.phase = .assembly ∧ 0xFF00 ≤ a.toNat ∧ (∀ x ∈ addressRange a b, s.handlerAt x = none) ∧
      t = { s with ht := registerAll s.ht (addressRange a b) h } := by
  unfold State.registerRange at e
  split at e
  · cases e
  · split at e
    · cases e
    · split at e
      · cases e
      · rename_i h1 h2 _ h3
        cases e
        exact ⟨by simpa using h1, by omega, by simpa [List.find?_eq_none] using h3, rfl⟩

end Sys2Proof.Machine
end

