-- ==== Sys2Proof/Laws/State.lean ====
section
/-! SUPPORT. One lemma per field per update of the state: what each shared operation of Machine/Ops.lean leaves in each
field. -/

namespace Sys2Proof.Machine

variable (s : State)

@[simp] theorem State.start_cfg : s.start.cfg = s.cfg := rfl
@[simp] theorem State.start_romBank : s.start.romBank = s.romBank := rfl
@[simp] theorem State.start_ramBank : s.start.ramBank = s.ramBank := rfl
@[simp] theorem State.start_ramEnable : s.start.ramEnable = s.ramEnable := rfl
@[simp] theorem State.start_rom : s.start.rom = s.rom := rfl
@[simp] theorem State.start_sram : s.start.sram = s.sram := rfl
@[simp] theorem State.start_vram : s.start.vram = s.vram := rfl
@[simp] theorem State.start_wram : s.start.wram = s.wram := rfl
@[simp] theorem State.start_oam : s.start.oam = s.oam := rfl
@[simp] theorem State.start_ht : s.start.ht = s.ht := rfl
@[simp] theorem State.start_phase : s.start.phase = .run := rfl
@[simp] theorem State.start_pending : s.start.pending = s.pending := rfl
@[simp] theorem State.start_rdata : s.start.rdata = none := rfl
@[simp] theorem State.start_dispatches : s.start.dispatches = s.dispatches := rfl
@[simp] theorem State.start_diags : s.start.diags = s.diags := rfl
@[simp] theorem State.start_draws : s.start.draws = s.draws := rfl

@[simp] theorem State.answer_cfg (b : Byte) : (s.answer b).cfg = s.cfg := rfl
@[simp] theorem State.answer_romBank (b : Byte) : (s.answer b).romBank = s.romBank := rfl
@[simp] theorem State.answer_ramBank (b : Byte) : (s.answer b).ramBank = s.ramBank := rfl
@[simp] theorem State.answer_ramEnable (b : Byte) : (s.answer b).ramEnable = s.ramEnable := rfl
@[simp] theorem State.answer_rom (b : Byte) : (s.answer b).rom = s.rom := rfl
@[simp] theorem State.answer_sram (b : Byte) : (s.answer b).sram = s.sram := rfl
@[simp] theorem State.answer_vram (b : Byte) : (s.answer b).vram = s.vram := rfl
@[simp] theorem State.answer_wram (b : Byte) : (s.answer b).wram = s.wram := rfl
@[simp] theorem State.answer_oam (b : Byte) : (s.answer b).oam = s.oam := rfl
@[simp] theorem State.answer_ht (b : Byte) : (s.answer b).ht = s.ht := rfl
@[simp] theorem State.answer_phase (b : Byte) : (s.answer b).phase = s.phase := rfl
@[simp] theorem State.answer_pending (b : Byte) : (s.answer b).pending = s.pending := rfl
@[simp] theorem State.answer_rdata (b : Byte) : (s.answer b).rdata = some b := rfl
@[simp] theorem State.answer_dispatches (b : Byte) : (s.answer b).dispatches = s.dispatches := rfl
@[simp] theorem State.answer_diags (b : Byte) : (s.answer b).diags = s.diags := rfl
@[simp] theorem State.answer_draws (b : Byte) : (s.answer b).draws = s.draws := rfl

@[simp] theorem State.emit_cfg (a : Addr) (k : DiagKind) : (s.emit a k).cfg = s.cfg := rfl
@[simp] theorem State.emit_romBank (a : Addr) (k : DiagKind) : (s.emit a k).romBank = s.romBank := rfl
@[simp] theorem State.emit_ramBank (a : Addr) (k : DiagKind) : (s.emit a k).ramBank = s.ramBank := rfl
@[simp] theorem State.emit_ramEnable (a : Addr) (k : DiagKind) : (s.emit a k).ramEnable = s.ramEnable := rfl
@[simp] theorem State.emit_rom (a : Addr) (k : DiagKind) : (s.emit a k).rom = s.rom := rfl
@[simp] theorem State.emit_sram (a : Addr) (k : DiagKind) : (s.emit a k).sram = s.sram := rfl
@[simp] theorem State.emit_vram (a : Addr) (k : DiagKind) : (s.emit a k).vram = s.vram := rfl
@[simp] theorem State.emit_wram (a : Addr) (k : DiagKind) : (s.emit a k).wram = s.wram := rfl
@[simp] theorem State.emit_oam (a : Addr) (k : DiagKind) : (s.emit a k).oam = s.oam := rfl
@[simp] theorem State.emit_ht (a : Addr) (k : DiagKind) : (s.emit a k).ht = s.ht := rfl
@[simp] theorem State.emit_phase (a : Addr) (k : DiagKind) : (s.emit a k).phase = s.phase := rfl
@[simp] theorem State.emit_pending (a : Addr) (k : DiagKind) : (s.emit a k).pending = s.pending := rfl
@[simp] theorem State.emit_rdata (a : Addr) (k : DiagKind) : (s.emit a k).rdata = s.rdata := rfl
@[simp] theorem State.emit_dispatches (a : Addr) (k : DiagKind) : (s.emit a k).dispatches = s.dispatches := rfl
@[simp] theorem State.emit_diags (a : Addr) (k : DiagKind) : (s.emit a k).diags = s.diags ++ [⟨a, k⟩] := rfl
@[simp] theorem State.emit_draws (a : Addr) (k : DiagKind) : (s.emit a k).draws = s.draws := rfl

@[simp] theorem State.callRead_cfg (h : Handler) : (s.callRead h).cfg = s.cfg := rfl
@[simp] theorem State.callRead_romBank (h : Handler) : (s.callRead h).romBank = s.romBank := rfl
@[simp] theorem State.callRead_ramBank (h : Handler) : (s.callRead h).ramBank = s.ramBank := rfl
@[simp] theorem State.callRead_ramEnable (h : Handler) : (s.callRead h).ramEnable = s.ramEnable := rfl
@[simp] theorem State.callRead_rom (h : Handler) : (s.callRead h).rom = s.rom := rfl
@[simp] theorem State.callRead_sram (h : Handler) : (s.callRead h).sram = s.sram := rfl
@[simp] theorem State.callRead_vram (h : Handler) : (s.callRead h).vram = s.vram := rfl
@[simp] theorem State.callRead_wram (h : Handler) : (s.callRead h).wram = s.wram := rfl
@[simp] theorem State.callRead_oam (h : Handler) : (s.callRead h).oam = s.oam := rfl
@[simp] theorem State.callRead_ht (h : Handler) : (s.callRead h).ht = s.ht := rfl
@[simp] theorem State.callRead_phase (h : Handler) : (s.callRead h).phase = s.phase := rfl
@[simp] theorem State.callRead_pending (h : Handler) : (s.callRead h).pending = s.pending := rfl
@[simp] theorem State.callRead_rdata (h : Handler) : (s.callRead h).rdata = some (Config.handlerByte s.draws h.id) := rfl
@[simp] theorem State.callRead_dispatches (h : Handler) : (s.callRead h).dispatches = s.dispatches ++ [.read h] := rfl
@[simp] theorem State.callRead_diags (h : Handler) : (s.callRead h).diags = s.diags := rfl
@[simp] theorem State.callRead_draws (h : Handler) : (s.callRead h).draws = s.draws + 1 := rfl

@[simp] theorem State.callWrite_cfg (h : Handler) (v : Byte) : (s.callWrite h v).cfg = s.cfg := rfl
@[simp] theorem State.callWrite_romBank (h : Handler) (v : Byte) : (s.callWrite h v).romBank = s.romBank := rfl
@[simp] theorem State.callWrite_ramBank (h : Handler) (v : Byte) : (s.callWrite h v).ramBank = s.ramBank := rfl
@[simp] theorem State.callWrite_ramEnable (h : Handler) (v : Byte) : (s.callWrite h v).ramEnable = s.ramEnable := rfl
@[simp] theorem State.callWrite_rom (h : Handler) (v : Byte) : (s.callWrite h v).rom = s.rom := rfl
@[simp] theorem State.callWrite_sram (h : Handler) (v : Byte) : (s.callWrite h v).sram = s.sram := rfl
@[simp] theorem State.callWrite_vram (h : Handler) (v : Byte) : (s.callWrite h v).vram = s.vram := rfl
@[simp] theorem State.callWrite_wram (h : Handler) (v : Byte) : (s.callWrite h v).wram = s.wram := rfl
@[simp] theorem State.callWrite_oam (h : Handler) (v : Byte) : (s.callWrite h v).oam = s.oam := rfl
@[simp] theorem State.callWrite_ht (h : Handler) (v : Byte) : (s.callWrite h v).ht = s.ht := rfl
@[simp] theorem State.callWrite_phase (h : Handler) (v : Byte) : (s.callWrite h v).phase = s.phase := rfl
@[simp] theorem State.callWrite_pending (h : Handler) (v : Byte) : (s.callWrite h v).pending = s.pending := rfl
@[simp] theorem State.callWrite_rdata (h : Handler) (v : Byte) : (s.callWrite h v).rdata = s.rdata := rfl
@[simp] theorem State.callWrite_dispatches (h : Handler) (v : Byte) : (s.callWrite h v).dispatches = s.dispatches ++ [.write h v] := rfl
@[simp] theorem State.callWrite_diags (h : Handler) (v : Byte) : (s.callWrite h v).diags = s.diags := rfl
@[simp] theorem State.callWrite_draws (h : Handler) (v : Byte) : (s.callWrite h v).draws = s.draws := rfl

@[simp] theorem State.storeSram_cfg (o : Nat) (v : Byte) : (s.storeSram o v).cfg = s.cfg := rfl
@[simp] theorem State.storeSram_romBank (o : Nat) (v : Byte) : (s.storeSram o v).romBank = s.romBank := rfl
@[simp] theorem State.storeSram_ramBank (o : Nat) (v : Byte) : (s.storeSram o v).ramBank = s.ramBank := rfl
@[simp] theorem State.storeSram_ramEnable (o : Nat) (v : Byte) : (s.storeSram o v).ramEnable = s.ramEnable := rfl
@[simp] theorem State.storeSram_rom (o : Nat) (v : Byte) : (s.storeSram o v).rom = s.rom := rfl
@[simp] theorem State.storeSram_sram (o : Nat) (v : Byte) : (s.storeSram o v).sram = s.sram.write o v := rfl
@[simp] theorem State.storeSram_vram (o : Nat) (v : Byte) : (s.storeSram o v).vram = s.vram := rfl
@[simp] theorem State.storeSram_wram (o : Nat) (v : Byte) : (s.storeSram o v).wram = s.wram := rfl
@[simp] theorem State.storeSram_oam (o : Nat) (v : Byte) : (s.storeSram o v).oam = s.oam := rfl
@[simp] theorem State.storeSram_ht (o : Nat) (v : Byte) : (s.storeSram o v).ht = s.ht := rfl
@[simp] theorem State.storeSram_phase (o : Nat) (v : Byte) : (s.storeSram o v).phase = s.phase := rfl
@[simp] theorem State.storeSram_pending (o : Nat) (v : Byte) : (s.storeSram o v).pending = s.pending := rfl
@[simp] theorem State.storeSram_rdata (o : Nat) (v : Byte) : (s.storeSram o v).rdata = s.rdata := rfl
@[simp] theorem State.storeSram_dispatches (o : Nat) (v : Byte) : (s.storeSram o v).dispatches = s.dispatches := rfl
@[simp] theorem State.storeSram_diags (o : Nat) (v : Byte) : (s.storeSram o v).diags = s.diags := rfl
@[simp] theorem State.storeSram_draws (o : Nat) (v : Byte) : (s.storeSram o v).draws = s.draws := rfl

@[simp] theorem State.storeVram_cfg (o : Nat) (v : Byte) : (s.storeVram o v).cfg = s.cfg := rfl
@[simp] theorem State.storeVram_romBank (o : Nat) (v : Byte) : (s.storeVram o v).romBank = s.romBank := rfl
@[simp] theorem State.storeVram_ramBank (o : Nat) (v : Byte) : (s.storeVram o v).ramBank = s.ramBank := rfl
@[simp] theorem State.storeVram_ramEnable (o : Nat) (v : Byte) : (s.storeVram o v).ramEnable = s.ramEnable := rfl
@[simp] theorem State.storeVram_rom (o : Nat) (v : Byte) : (s.storeVram o v).rom = s.rom := rfl
@[simp] theorem State.storeVram_sram (o : Nat) (v : Byte) : (s.storeVram o v).sram = s.sram := rfl
@[simp] theorem State.storeVram_vram (o : Nat) (v : Byte) : (s.storeVram o v).vram = s.vram.write o v := rfl
@[simp] theorem State.storeVram_wram (o : Nat) (v : Byte) : (s.storeVram o v).wram = s.wram := rfl
@[simp] theorem State.storeVram_oam (o : Nat) (v : Byte) : (s.storeVram o v).oam = s.oam := rfl
@[simp] theorem State.storeVram_ht (o : Nat) (v : Byte) : (s.storeVram o v).ht = s.ht := rfl
@[simp] theorem State.storeVram_phase (o : Nat) (v : Byte) : (s.storeVram o v).phase = s.phase := rfl
@[simp] theorem State.storeVram_pending (o : Nat) (v : Byte) : (s.storeVram o v).pending = s.pending := rfl
@[simp] theorem State.storeVram_rdata (o : Nat) (v : Byte) : (s.storeVram o v).rdata = s.rdata := rfl
@[simp] theorem State.storeVram_dispatches (o : Nat) (v : Byte) : (s.storeVram o v).dispatches = s.dispatches := rfl
@[simp] theorem State.storeVram_diags (o : Nat) (v : Byte) : (s.storeVram o v).diags = s.diags := rfl
@[simp] theorem State.storeVram_draws (o : Nat) (v : Byte) : (s.storeVram o v).draws = s.draws := rfl

@[simp] theorem State.storeWram_cfg (o : Nat) (v : Byte) : (s.storeWram o v).cfg = s.cfg := rfl
@[simp] theorem State.storeWram_romBank (o : Nat) (v : Byte) : (s.storeWram o v).romBank = s.romBank := rfl
@[simp] theorem State.storeWram_ramBank (o : Nat) (v : Byte) : (s.storeWram o v).ramBank = s.ramBank := rfl
@[simp] theorem State.storeWram_ramEnable (o : Nat) (v : Byte) : (s.storeWram o v).ramEnable = s.ramEnable := rfl
@[simp] theorem State.storeWram_rom (o : Nat) (v : Byte) : (s.storeWram o v).rom = s.rom := rfl
@[simp] theorem State.storeWram_sram (o : Nat) (v : Byte) : (s.storeWram o v).sram = s.sram := rfl
@[simp] theorem State.storeWram_vram (o : Nat) (v : Byte) : (s.storeWram o v).vram = s.vram := rfl
@[simp] theorem State.storeWram_wram (o : Nat) (v : Byte) : (s.storeWram o v).wram = s.wram.write o v := rfl
@[simp] theorem State.storeWram_oam (o : Nat) (v : Byte) : (s.storeWram o v).oam = s.oam := rfl
@[simp] theorem State.storeWram_ht (o : Nat) (v : Byte) : (s.storeWram o v).ht = s.ht := rfl
@[simp] theorem State.storeWram_phase (o : Nat) (v : Byte) : (s.storeWram o v).phase = s.phase := rfl
@[simp] theorem State.storeWram_pending (o : Nat) (v : Byte) : (s.storeWram o v).pending = s.pending := rfl
@[simp] theorem State.storeWram_rdata (o : Nat) (v : Byte) : (s.storeWram o v).rdata = s.rdata := rfl
@[simp] theorem State.storeWram_dispatches (o : Nat) (v : Byte) : (s.storeWram o v).dispatches = s.dispatches := rfl
@[simp] theorem State.storeWram_diags (o : Nat) (v : Byte) : (s.storeWram o v).diags = s.diags := rfl
@[simp] theorem State.storeWram_draws (o : Nat) (v : Byte) : (s.storeWram o v).draws = s.draws := rfl

@[simp] theorem State.storeOam_cfg (o : Nat) (v : Byte) : (s.storeOam o v).cfg = s.cfg := rfl
@[simp] theorem State.storeOam_romBank (o : Nat) (v : Byte) : (s.storeOam o v).romBank = s.romBank := rfl
@[simp] theorem State.storeOam_ramBank (o : Nat) (v : Byte) : (s.storeOam o v).ramBank = s.ramBank := rfl
@[simp] theorem State.storeOam_ramEnable (o : Nat) (v : Byte) : (s.storeOam o v).ramEnable = s.ramEnable := rfl
@[simp] theorem State.storeOam_rom (o : Nat) (v : Byte) : (s.storeOam o v).rom = s.rom := rfl
@[simp] theorem State.storeOam_sram (o : Nat) (v : Byte) : (s.storeOam o v).sram = s.sram := rfl
@[simp] theorem State.storeOam_vram (o : Nat) (v : Byte) : (s.storeOam o v).vram = s.vram := rfl
@[simp] theorem State.storeOam_wram (o : Nat) (v : Byte) : (s.storeOam o v).wram = s.wram := rfl
@[simp] theorem State.storeOam_oam (o : Nat) (v : Byte) : (s.storeOam o v).oam = s.oam.write o v := rfl
@[simp] theorem State.storeOam_ht (o : Nat) (v : Byte) : (s.storeOam o v).ht = s.ht := rfl
@[simp] theorem State.storeOam_phase (o : Nat) (v : Byte) : (s.storeOam o v).phase = s.phase := rfl
@[simp] theorem State.storeOam_pending (o : Nat) (v : Byte) : (s.storeOam o v).pending = s.pending := rfl
@[simp] theorem State.storeOam_rdata (o : Nat) (v : Byte) : (s.storeOam o v).rdata = s.rdata := rfl
@[simp] theorem State.storeOam_dispatches (o : Nat) (v : Byte) : (s.storeOam o v).dispatches = s.dispatches := rfl
@[simp] theorem State.storeOam_diags (o : Nat) (v : Byte) : (s.storeOam o v).diags = s.diags := rfl
@[simp] theorem State.storeOam_draws (o : Nat) (v : Byte) : (s.storeOam o v).draws = s.draws := rfl

@[simp] theorem State.issue_cfg (w : BusWord) : (s.issue w).cfg = s.cfg := rfl
@[simp] theorem State.issue_romBank (w : BusWord) : (s.issue w).romBank = s.romBank := rfl
@[simp] theorem State.issue_ramBank (w : BusWord) : (s.issue w).ramBank = s.ramBank := rfl
@[simp] theorem State.issue_ramEnable (w : BusWord) : (s.issue w).ramEnable = s.ramEnable := rfl
@[simp] theorem State.issue_rom (w : BusWord) : (s.issue w).rom = s.rom := rfl
@[simp] theorem State.issue_sram (w : BusWord) : (s.issue w).sram = s.sram := rfl
@[simp] theorem State.issue_vram (w : BusWord) : (s.issue w).vram = s.vram := rfl
@[simp] theorem State.issue_wram (w : BusWord) : (s.issue w).wram = s.wram := rfl
@[simp] theorem State.issue_oam (w : BusWord) : (s.issue w).oam = s.oam := rfl
@[simp] theorem State.issue_ht (w : BusWord) : (s.issue w).ht = s.ht := rfl
@[simp] theorem State.issue_phase (w : BusWord) : (s.issue w).phase = s.phase := rfl
@[simp] theorem State.issue_pending (w : BusWord) : (s.issue w).pending = s.pending ++ [w] := rfl
@[simp] theorem State.issue_rdata (w : BusWord) : (s.issue w).rdata = s.rdata := rfl
@[simp] theorem State.issue_dispatches (w : BusWord) : (s.issue w).dispatches = s.dispatches := rfl
@[simp] theorem State.issue_diags (w : BusWord) : (s.issue w).diags = s.diags := rfl
@[simp] theorem State.issue_draws (w : BusWord) : (s.issue w).draws = s.draws := rfl

@[simp] theorem State.atReset_cfg (c : Cfg) (r : Memory) (i : InitContents) : (State.atReset c r i).cfg = c := rfl
@[simp] theorem State.atReset_romBank (c : Cfg) (r : Memory) (i : InitContents) : (State.atReset c r i).romBank = 1 := rfl
@[simp] theorem State.atReset_ramBank (c : Cfg) (r : Memory) (i : InitContents) : (State.atReset c r i).ramBank = 0 := rfl
@[simp] theorem State.atReset_rom (c : Cfg) (r : Memory) (i : InitContents) : (State.atReset c r i).rom = r := rfl
@[simp] theorem State.atReset_sram (c : Cfg) (r : Memory) (i : InitContents) : (State.atReset c r i).sram = i.sram := rfl
@[simp] theorem State.atReset_vram (c : Cfg) (r : Memory) (i : InitContents) : (State.atReset c r i).vram = i.vram := rfl
@[simp] theorem State.atReset_wram (c : Cfg) (r : Memory) (i : InitContents) : (State.atReset c r i).wram = i.wram := rfl
@[simp] theorem State.atReset_oam (c : Cfg) (r : Memory) (i : InitContents) : (State.atReset c r i).oam = i.oam := rfl
@[simp] theorem State.atReset_ht (c : Cfg) (r : Memory) (i : InitContents) : (State.atReset c r i).ht = [] := rfl
@[simp] theorem State.atReset_phase (c : Cfg) (r : Memory) (i : InitContents) : (State.atReset c r i).phase = .assembly := rfl
@[simp] theorem State.atReset_pending (c : Cfg) (r : Memory) (i : InitContents) : (State.atReset c r i).pending = [] := rfl
@[simp] theorem State.atReset_rdata (c : Cfg) (r : Memory) (i : InitContents) : (State.atReset c r i).rdata = none := rfl
@[simp] theorem State.atReset_dispatches (c : Cfg) (r : Memory) (i : InitContents) : (State.atReset c r i).dispatches = [] := rfl
@[simp] theorem State.atReset_diags (c : Cfg) (r : Memory) (i : InitContents) : (State.atReset c r i).diags = [] := rfl
@[simp] theorem State.atReset_draws (c : Cfg) (r : Memory) (i : InitContents) : (State.atReset c r i).draws = 0 := rfl

end Sys2Proof.Machine
end

