-- ==== Sys2Proof/Laws/Ops.lean ====
section
/-! SUPPORT. What each shared operation over the bank registers can do, said once: the numbers the register updates give,
what they leave, and what the gate and the translation depend on. -/

namespace Sys2Proof.Machine

/-! ### Register fields as numbers -/

theorem withLowByte_toNat (r : BitVec 9) (d : Byte) :
    (withLowByte r d).toNat = r.toNat / 0x100 * 0x100 + d.toNat := by
  have hr := r.isLt
  have hd := d.isLt
  have hb : r.getLsbD 8 = decide (r.toNat / 0x100 = 1) := by
    rw [BitVec.getLsbD, Nat.testBit_eq_decide_div_mod_eq]
    exact decide_eq_decide.2 (by omega)
  rw [withLowByte, BitVec.toNat_append, hb, Nat.shiftLeft_eq]
  rw [← Nat.shiftLeft_eq, ← Nat.shiftLeft_add_eq_or_of_lt hd, Nat.shiftLeft_eq]
  by_cases h : r.toNat / 0x100 = 1
  · simp [h]
  · have : r.toNat / 0x100 = 0 := by omega
    simp [this]

theorem withNinthBit_toNat (r : BitVec 9) (d : Byte) :
    (withNinthBit r d).toNat = d.toNat % 2 * 0x100 + r.toNat % 0x100 := by
  have hr := r.isLt
  have hb : d.getLsbD 0 = decide (d.toNat % 2 = 1) := by
    rw [BitVec.getLsbD, Nat.testBit_eq_decide_div_mod_eq]
    simp
  have hl : (r.extractLsb' 0 8).toNat = r.toNat % 0x100 := by simp [BitVec.extractLsb'_toNat]
  have hlt : (r.extractLsb' 0 8).toNat < 2 ^ 8 := (r.extractLsb' 0 8).isLt
  rw [withNinthBit, BitVec.toNat_append, hb, ← Nat.shiftLeft_add_eq_or_of_lt hlt, Nat.shiftLeft_eq, hl]
  by_cases h : d.toNat % 2 = 1
  · simp [h]
  · have : d.toNat % 2 = 0 := by omega
    simp [this]

theorem ramBankOperand_toNat (d : Byte) : (ramBankOperand d).toNat = d.toNat % 0x10 := by
  simp [ramBankOperand, BitVec.extractLsb'_toNat]

/-! ### Offsets -/

theorem romxOffset_eq (a : Addr) : romxOffset a = a.toNat - 0x4000 := by unfold romxOffset; rfl

theorem vramOffset_eq (a : Addr) : vramOffset a = a.toNat - 0x8000 := by unfold vramOffset; rfl

theorem cramOffset_eq (a : Addr) : cramOffset a = a.toNat - 0xA000 := by unfold cramOffset; rfl

theorem wramOffset_eq (a : Addr) : wramOffset a = a.toNat - 0xC000 := by unfold wramOffset; rfl

theorem echoOffset_eq (a : Addr) : echoOffset a = a.toNat - 0xE000 := by unfold echoOffset; rfl

theorem oamOffset_eq (a : Addr) : oamOffset a = a.toNat - 0xFE00 := by unfold oamOffset; rfl

/-! ### Bank-control registers -/

section
variable (v : Byte) (s : State)

theorem State.writeRamGate_none (h : s.cfg.variant = .none) : s.writeRamGate v = s := by
  simp [State.writeRamGate, h]

theorem State.writeRomBankLow_none (h : s.cfg.variant = .none) : s.writeRomBankLow v = s := by
  simp [State.writeRomBankLow, h]

theorem State.writeRomBankHigh_none (h : s.cfg.variant = .none) : s.writeRomBankHigh v = s := by
  simp [State.writeRomBankHigh, h]

theorem State.writeRamBank_none (h : s.cfg.variant = .none) : s.writeRamBank v = s := by
  simp [State.writeRamBank, h]

theorem State.writeRamGate_banked (h : s.cfg.variant = .banked) :
    s.writeRamGate v = { s with ramEnable := ramGate v s.ramEnable } := by
  simp [State.writeRamGate, h]

theorem State.writeRomBankLow_banked (h : s.cfg.variant = .banked) :
    s.writeRomBankLow v = { s with romBank := withLowByte s.romBank v } := by
  simp [State.writeRomBankLow, h]

theorem State.writeRomBankHigh_banked (h : s.cfg.variant = .banked) :
    s.writeRomBankHigh v = { s with romBank := withNinthBit s.romBank v } := by
  simp [State.writeRomBankHigh, h]

theorem State.writeRamBank_banked (h : s.cfg.variant = .banked) :
    s.writeRamBank v = { s with ramBank := ramBankOperand v } := by
  simp [State.writeRamBank, h]

/-- WR.RAMG's update reaches the latch only. -/
theorem State.writeRamGate_frame : s.writeRamGate v = { s with ramEnable := (s.writeRamGate v).ramEnable } := by
  cases h : s.cfg.variant <;> simp [State.writeRamGate, h]

/-- WR.ROMB0's update reaches `rom_bank` only. -/
theorem State.writeRomBankLow_frame : s.writeRomBankLow v = { s with romBank := (s.writeRomBankLow v).romBank } := by
  cases h : s.cfg.variant <;> simp [State.writeRomBankLow, h]

/-- WR.ROMB1's update reaches `rom_bank` only. -/
theorem State.writeRomBankHigh_frame : s.writeRomBankHigh v = { s with romBank := (s.writeRomBankHigh v).romBank } := by
  cases h : s.cfg.variant <;> simp [State.writeRomBankHigh, h]

/-- WR.RAMB's update reaches `ram_bank` only. -/
theorem State.writeRamBank_frame : s.writeRamBank v = { s with ramBank := (s.writeRamBank v).ramBank } := by
  cases h : s.cfg.variant <;> simp [State.writeRamBank, h]

/-! The five sub-ranges of a bank-control write. -/

theorem State.onBankControlWrite_ramg {a : Addr} (h : a.toNat ≤ 0x1FFF) :
    s.onBankControlWrite a v = s.writeRamGate v := if_pos h

theorem State.onBankControlWrite_romb0 {a : Addr} (h : 0x2000 ≤ a.toNat) (h' : a.toNat ≤ 0x2FFF) :
    s.onBankControlWrite a v = s.writeRomBankLow v := by
  unfold State.onBankControlWrite
  rw [if_neg (by omega), if_pos h']

theorem State.onBankControlWrite_romb1 {a : Addr} (h : 0x3000 ≤ a.toNat) (h' : a.toNat ≤ 0x3FFF) :
    s.onBankControlWrite a v = s.writeRomBankHigh v := by
  unfold State.onBankControlWrite
  rw [if_neg (by omega), if_neg (by omega), if_pos h']

theorem State.onBankControlWrite_ramb {a : Addr} (h : 0x4000 ≤ a.toNat) (h' : a.toNat ≤ 0x5FFF) :
    s.onBankControlWrite a v = s.writeRamBank v := by
  unfold State.onBankControlWrite
  rw [if_neg (by omega), if_neg (by omega), if_neg (by omega), if_pos h']

theorem State.onBankControlWrite_rsv6 {a : Addr} (h : 0x6000 ≤ a.toNat) : s.onBankControlWrite a v = s := by
  unfold State.onBankControlWrite
  rw [if_neg (by omega), if_neg (by omega), if_neg (by omega), if_neg (by omega)]

/-- The bank controller changes at most its own three registers. -/
theorem State.onBankControlWrite_frame (a : Addr) :
    s.onBankControlWrite a v = { s with
      romBank := (s.onBankControlWrite a v).romBank
      ramBank := (s.onBankControlWrite a v).ramBank
      ramEnable := (s.onBankControlWrite a v).ramEnable } := by
  unfold State.onBankControlWrite
  split
  · cases h : s.cfg.variant <;> simp [State.writeRamGate, h]
  · split
    · cases h : s.cfg.variant <;> simp [State.writeRomBankLow, h]
    · split
      · cases h : s.cfg.variant <;> simp [State.writeRomBankHigh, h]
      · split
        · cases h : s.cfg.variant <;> simp [State.writeRamBank, h]
        · rfl

end

theorem ramGate_set (f : Bool) : ramGate 0x0A f = true := rfl

theorem ramGate_clear (f : Bool) : ramGate 0x00 f = false := rfl

theorem ramGate_other {v : Byte} (f : Bool) (h1 : v ≠ 0x0A) (h2 : v ≠ 0x00) : ramGate v f = f := by
  unfold ramGate ramgSet ramgClear
  rw [if_neg h1, if_neg h2]

/-! ### The gate and the translation -/

theorem State.accessible_iff (s : State) : s.accessible = true ↔ s.ramEnable = true ∧ 0 < s.cfg.ramBanks := by
  simp [State.accessible]

theorem State.not_accessible_iff (s : State) : s.accessible = false ↔ s.ramEnable = false ∨ s.cfg.ramBanks = 0 := by
  cases h : s.ramEnable <;> simp [State.accessible, h]

@[simp] theorem State.accessible_start (s : State) : s.start.accessible = s.accessible := rfl

@[simp] theorem State.translateRam_start (s : State) (a : Addr) : s.start.translateRam a = s.translateRam a := rfl

@[simp] theorem State.translateRom_start (s : State) (a : Addr) : s.start.translateRom a = s.translateRom a := rfl

@[simp] theorem State.handlerAt_start (s : State) (a : Addr) : s.start.handlerAt a = s.handlerAt a := rfl

theorem State.translateRom_low (s : State) {a : Addr} (h : a.toNat ≤ 0x3FFF) : s.translateRom a = a.toNat := if_pos h

theorem State.translateRom_high (s : State) {a : Addr} (h : 0x4000 ≤ a.toNat) :
    s.translateRom a = (s.romBank.toNat % s.cfg.romBanks) * 0x4000 + (a.toNat - 0x4000) := if_neg (by omega)

/-- A bank index reduced modulo a positive count, with an offset below the bank size, stays below the region's size. -/
theorem bank_offset_lt {index count size offset : Nat} (hc : 0 < count) (ho : offset < size) :
    index % count * size + offset < count * size := by
  have h : index % count + 1 ≤ count := Nat.mod_lt index hc
  calc index % count * size + offset < index % count * size + size := by omega
    _ = (index % count + 1) * size := by rw [Nat.add_mul]; omega
    _ ≤ count * size := Nat.mul_le_mul_right _ h

end Sys2Proof.Machine
end

