-- ==== Sys2Proof/Laws/PerInstr.lean ====
section
/-! SUPPORT. Statements for all instructions, one lemma per constructor. `EncodedFields`: the word of an instruction holds
its intent, its address and its data byte in the fields of R80, and is below 2^24 exactly for a READ. -/

namespace Sys2Proof.Laws.EncodedFields

/-- The word's three fields are the instruction's operands, and bit 24 is its intent. -/
def Statement (i : Instr) : Prop :=
  intentField (encode i) = i.intent ∧ addrField (encode i) = i.addr ∧ dataField (encode i) = i.data ∧
  ((encode i).toNat < 0x1000000 ↔ i.intent = .read)

/-- The one proof: the fields of a packed word. -/
theorem of_packWord (i : Instr) : Statement i := by
  have ha := i.addr.isLt
  have hd := i.data.isLt
  refine ⟨intentField_packWord _ _ _, addrField_packWord _ _ _, dataField_packWord _ _ _, ?_⟩
  rw [encode, packWord_toNat]
  cases i.intent <;> simp only [Intent.code, reduceCtorEq, iff_true, iff_false] <;> omega

theorem rdRom0 (a : Addr) : Statement (.rdRom0 a) := of_packWord _

theorem rdRomx (a : Addr) : Statement (.rdRomx a) := of_packWord _

theorem rdVram (a : Addr) : Statement (.rdVram a) := of_packWord _

theorem rdCram (a : Addr) : Statement (.rdCram a) := of_packWord _

theorem rdWram (a : Addr) : Statement (.rdWram a) := of_packWord _

theorem rdEcho (a : Addr) : Statement (.rdEcho a) := of_packWord _

theorem rdOam (a : Addr) : Statement (.rdOam a) := of_packWord _

theorem rdUnus (a : Addr) : Statement (.rdUnus a) := of_packWord _

theorem rdMmio (a : Addr) : Statement (.rdMmio a) := of_packWord _

theorem wrRamg (a : Addr) (d : Byte) : Statement (.wrRamg a d) := of_packWord _

theorem wrRomb0 (a : Addr) (d : Byte) : Statement (.wrRomb0 a d) := of_packWord _

theorem wrRomb1 (a : Addr) (d : Byte) : Statement (.wrRomb1 a d) := of_packWord _

theorem wrRamb (a : Addr) (d : Byte) : Statement (.wrRamb a d) := of_packWord _

theorem wrRsv6 (a : Addr) (d : Byte) : Statement (.wrRsv6 a d) := of_packWord _

theorem wrVram (a : Addr) (d : Byte) : Statement (.wrVram a d) := of_packWord _

theorem wrCram (a : Addr) (d : Byte) : Statement (.wrCram a d) := of_packWord _

theorem wrWram (a : Addr) (d : Byte) : Statement (.wrWram a d) := of_packWord _

theorem wrEcho (a : Addr) (d : Byte) : Statement (.wrEcho a d) := of_packWord _

theorem wrOam (a : Addr) (d : Byte) : Statement (.wrOam a d) := of_packWord _

theorem wrUnus (a : Addr) (d : Byte) : Statement (.wrUnus a d) := of_packWord _

theorem wrMmio (a : Addr) (d : Byte) : Statement (.wrMmio a d) := of_packWord _

end Sys2Proof.Laws.EncodedFields
end

