-- ==== Sys2Proof/Laws/Step.lean ====
section
/-! SUPPORT. What a transaction and a step can do, said once: what no instruction touches, the two shapes a step has, what
the selector depends on, and what emitting an event leaves alone. -/

namespace Sys2Proof.Machine

/-- What no instruction changes, and the latch every instruction sets. -/
theorem exec_frame {i : Instr} {s t : State} (h : exec i s = .next t) :
    t.cfg = s.cfg ∧ t.rom = s.rom ∧ t.ht = s.ht ∧ t.phase = .run ∧ t.pending = s.pending := by
  cases i <;> simp only [exec, execRdRom0, execRdRomx, execRdVram, execRdCram, execRdWram, execRdEcho, execRdOam,
    execRdUnus, execRdMmio, execWrRamg, execWrRomb0, execWrRomb1, execWrRamb, execWrRsv6, execWrVram, execWrCram,
    execWrWram, execWrEcho, execWrOam, execWrUnus, execWrMmio] at h
  all_goals first | split at h | skip
  all_goals cases h
  all_goals first | exact ⟨rfl, rfl, rfl, rfl, rfl⟩ | skip
  · rw [State.writeRamGate_frame]
    exact ⟨rfl, rfl, rfl, rfl, rfl⟩
  · rw [State.writeRomBankLow_frame]
    exact ⟨rfl, rfl, rfl, rfl, rfl⟩
  · rw [State.writeRomBankHigh_frame]
    exact ⟨rfl, rfl, rfl, rfl, rfl⟩
  · rw [State.writeRamBank_frame]
    exact ⟨rfl, rfl, rfl, rfl, rfl⟩

/-- A step answers nothing, or is the decoded instruction run after its word is taken. -/
theorem step_cases {s t : State} (h : step s = .next t) :
    (s.pending = [] ∧ t = s) ∨
      ∃ w rest, s.pending = w :: rest ∧ exec (decodeWord w) { s with pending := rest } = .next t := by
  cases hp : s.pending with
  | nil =>
    simp only [step, State.fetch, hp] at h
    cases h
    exact .inl ⟨rfl, rfl⟩
  | cons w rest =>
    simp only [step, State.fetch, hp] at h
    exact .inr ⟨w, rest, rfl, h⟩

/-- Every word decodes to a well-formed instruction. -/
theorem decodeWord_wf (w : BusWord) : (decodeWord w).wf = true := by
  unfold decodeWord decodeAccess
  split
  · exact decodeRead_wf _
  · exact decodeWrite_wf _ _

/-- A step on a word given by its fields. -/
theorem step_packWord {s : State} {i : Intent} {a : Addr} {d : Byte} {rest : List BusWord}
    (h : s.pending = packWord i a d :: rest) : step s = exec (decodeAccess i a d) { s with pending := rest } := by
  simp only [step, State.fetch, h]
  rw [decodeWord, intentField_packWord, addrField_packWord, dataField_packWord]

@[simp] theorem answerEach_nil (s : State) : answerEach [] s = .next s := rfl

theorem answerEach_cons {w : BusWord} {ws : List BusWord} {s t : State}
    (h : exec (decodeWord w) { s with pending := s.pending.drop 1 } = .next t) :
    answerEach (w :: ws) s = answerEach ws t := by
  simp only [answerEach, h]

@[simp] theorem runSteps_zero (s : State) : runSteps 0 s = .next s := rfl

theorem runSteps_succ {k : Nat} {s t : State} (h : step s = .next t) : runSteps (k + 1) s = runSteps k t := by
  simp only [runSteps, h]

/-! ### The selector -/

/-- `resolve` reads the configuration, the bank registers and the handler table, and nothing else. -/
theorem State.resolve_congr {s t : State} (a : Addr) (i : Intent) (h1 : t.cfg = s.cfg) (h2 : t.romBank = s.romBank)
    (h3 : t.ramBank = s.ramBank) (h4 : t.ramEnable = s.ramEnable) (h5 : t.ht = s.ht) :
    t.resolve a i = s.resolve a i := by
  have e1 : ∀ a, t.translateRom a = s.translateRom a := fun a => by simp only [State.translateRom, h1, h2]
  have e2 : ∀ a, t.translateRam a = s.translateRam a := fun a => by simp only [State.translateRam, h1, h3]
  have e3 : t.accessible = s.accessible := by simp only [State.accessible, h1, h4]
  have e4 : ∀ a, t.handlerAt a = s.handlerAt a := fun a => by simp only [State.handlerAt, h5]
  unfold State.resolve
  simp only [e1, e2, e3, e4]

theorem State.resolve_ne_handler (s : State) {a : Addr} (i : Intent) (h : a.toNat ≤ 0xFEFF) (g : Handler) :
    s.resolve a i ≠ .mmioHandler g := by
  have hr : region a ≠ .mmio := by
    rw [Ne, region_mmio]
    omega
  unfold State.resolve
  split <;> simp_all
  split <;> simp

/-! ### Emitting an event -/

section
variable (k : Option DiagKind) (a : Addr) (s : State)

@[simp] theorem State.emitIfFlagged_rom : (s.emitIfFlagged k a).rom = s.rom := by cases k <;> rfl

@[simp] theorem State.emitIfFlagged_sram : (s.emitIfFlagged k a).sram = s.sram := by cases k <;> rfl

@[simp] theorem State.emitIfFlagged_vram : (s.emitIfFlagged k a).vram = s.vram := by cases k <;> rfl

@[simp] theorem State.emitIfFlagged_wram : (s.emitIfFlagged k a).wram = s.wram := by cases k <;> rfl

@[simp] theorem State.emitIfFlagged_oam : (s.emitIfFlagged k a).oam = s.oam := by cases k <;> rfl

@[simp] theorem State.emitIfFlagged_rdata : (s.emitIfFlagged k a).rdata = s.rdata := by cases k <;> rfl

end

end Sys2Proof.Machine
end

