-- ==== Sys2Proof/Tests/Slice0.lean ====
section
/-! SUPPORT. Tests on fixed values, expected results from spec/95_test_vectors.md (the vector is named beside each) or
from the rule named, and for each statement with hypotheses a witness that meets them. -/

namespace Sys2Proof.Tests

open Sys2Proof.Machine

/-! ### Well-formedness: one ill-formed term for each check -/

theorem test_wf_refuses_rdRom0 : (Instr.rdRom0 0x4000#16).wf = false := by decide
theorem test_wf_refuses_rdRomx : (Instr.rdRomx 0x8000#16).wf = false := by decide
theorem test_wf_refuses_rdVram : (Instr.rdVram 0xA000#16).wf = false := by decide
theorem test_wf_refuses_rdCram : (Instr.rdCram 0xC000#16).wf = false := by decide
theorem test_wf_refuses_rdWram : (Instr.rdWram 0xE000#16).wf = false := by decide
theorem test_wf_refuses_rdEcho : (Instr.rdEcho 0xFE00#16).wf = false := by decide
theorem test_wf_refuses_rdOam : (Instr.rdOam 0xFEA0#16).wf = false := by decide
theorem test_wf_refuses_rdUnus : (Instr.rdUnus 0xFF00#16).wf = false := by decide
theorem test_wf_refuses_rdMmio : (Instr.rdMmio 0xFEFF#16).wf = false := by decide
theorem test_wf_refuses_wrRamg : (Instr.wrRamg 0x2000#16 0x5A).wf = false := by decide
theorem test_wf_refuses_wrRomb0 : (Instr.wrRomb0 0x3000#16 0x5A).wf = false := by decide
theorem test_wf_refuses_wrRomb1 : (Instr.wrRomb1 0x4000#16 0x5A).wf = false := by decide
theorem test_wf_refuses_wrRamb : (Instr.wrRamb 0x6000#16 0x5A).wf = false := by decide
theorem test_wf_refuses_wrRsv6 : (Instr.wrRsv6 0x8000#16 0x5A).wf = false := by decide
theorem test_wf_refuses_wrVram : (Instr.wrVram 0xA000#16 0x5A).wf = false := by decide
theorem test_wf_refuses_wrCram : (Instr.wrCram 0xC000#16 0x5A).wf = false := by decide
theorem test_wf_refuses_wrWram : (Instr.wrWram 0xE000#16 0x5A).wf = false := by decide
theorem test_wf_refuses_wrEcho : (Instr.wrEcho 0xFE00#16 0x5A).wf = false := by decide
theorem test_wf_refuses_wrOam : (Instr.wrOam 0xFEA0#16 0x5A).wf = false := by decide
theorem test_wf_refuses_wrUnus : (Instr.wrUnus 0xFF00#16 0x5A).wf = false := by decide
theorem test_wf_refuses_wrMmio : (Instr.wrMmio 0xFEFF#16 0x5A).wf = false := by decide

/-! ### Decoding: the ends of every range (V1 to V27), the lower word written out as its fields' bits (R80) -/

theorem test_decode_rdRom0 :
    decodeWord (0b0#1 ++ 0b0000000000000000#16 ++ 0b00000000#8) = .rdRom0 0x0000#16 ∧
      decodeWord 0x03FFF00#25 = .rdRom0 0x3FFF#16 := by decide

theorem test_decode_rdRomx :
    decodeWord (0b0#1 ++ 0b0100000000000000#16 ++ 0b10100101#8) = .rdRomx 0x4000#16 ∧
      decodeWord 0x07FFF00#25 = .rdRomx 0x7FFF#16 := by decide

theorem test_decode_rdVram :
    decodeWord (0b0#1 ++ 0b1000000000000000#16 ++ 0b00000000#8) = .rdVram 0x8000#16 ∧
      decodeWord 0x09FFF00#25 = .rdVram 0x9FFF#16 := by decide

theorem test_decode_rdCram :
    decodeWord (0b0#1 ++ 0b1010000000000000#16 ++ 0b00000000#8) = .rdCram 0xA000#16 ∧
      decodeWord 0x0BFFF00#25 = .rdCram 0xBFFF#16 := by decide

theorem test_decode_rdWram :
    decodeWord (0b0#1 ++ 0b1100000000000000#16 ++ 0b00000000#8) = .rdWram 0xC000#16 ∧
      decodeWord 0x0DFFF00#25 = .rdWram 0xDFFF#16 := by decide

theorem test_decode_rdEcho :
    decodeWord (0b0#1 ++ 0b1110000000000000#16 ++ 0b00000000#8) = .rdEcho 0xE000#16 ∧
      decodeWord 0x0FDFF00#25 = .rdEcho 0xFDFF#16 := by decide

theorem test_decode_rdOam :
    decodeWord (0b0#1 ++ 0b1111111000000000#16 ++ 0b00000000#8) = .rdOam 0xFE00#16 ∧
      decodeWord 0x0FE9F00#25 = .rdOam 0xFE9F#16 := by decide

theorem test_decode_rdUnus :
    decodeWord (0b0#1 ++ 0b1111111010100000#16 ++ 0b00000000#8) = .rdUnus 0xFEA0#16 ∧
      decodeWord 0x0FEFF00#25 = .rdUnus 0xFEFF#16 := by decide

theorem test_decode_rdMmio :
    decodeWord (0b0#1 ++ 0b1111111100000000#16 ++ 0b00000000#8) = .rdMmio 0xFF00#16 ∧
      decodeWord 0x0FFFF00#25 = .rdMmio 0xFFFF#16 := by decide

theorem test_decode_wrRamg :
    decodeWord (0b1#1 ++ 0b0000000000000000#16 ++ 0b00001010#8) = .wrRamg 0x0000#16 0x0A#8 ∧
      decodeWord 0x11FFF00#25 = .wrRamg 0x1FFF#16 0x00#8 := by decide

theorem test_decode_wrRomb0 :
    decodeWord (0b1#1 ++ 0b0010000000000000#16 ++ 0b00000101#8) = .wrRomb0 0x2000#16 0x05#8 ∧
      decodeWord 0x12FFF00#25 = .wrRomb0 0x2FFF#16 0x00#8 := by decide

theorem test_decode_wrRomb1 :
    decodeWord (0b1#1 ++ 0b0011000000000000#16 ++ 0b11111110#8) = .wrRomb1 0x3000#16 0xFE#8 ∧
      decodeWord 0x13FFF00#25 = .wrRomb1 0x3FFF#16 0x00#8 := by decide

theorem test_decode_wrRamb :
    decodeWord (0b1#1 ++ 0b0100000000000000#16 ++ 0b00010011#8) = .wrRamb 0x4000#16 0x13#8 ∧
      decodeWord 0x15FFF00#25 = .wrRamb 0x5FFF#16 0x00#8 := by decide

theorem test_decode_wrRsv6 :
    decodeWord (0b1#1 ++ 0b0110000000000000#16 ++ 0b00000001#8) = .wrRsv6 0x6000#16 0x01#8 ∧
      decodeWord 0x17FFF00#25 = .wrRsv6 0x7FFF#16 0x00#8 := by decide

theorem test_decode_wrVram :
    decodeWord (0b1#1 ++ 0b1000000000000000#16 ++ 0b00111100#8) = .wrVram 0x8000#16 0x3C#8 ∧
      decodeWord 0x19FFF00#25 = .wrVram 0x9FFF#16 0x00#8 := by decide

theorem test_decode_wrCram :
    decodeWord (0b1#1 ++ 0b1010000000000000#16 ++ 0b01111110#8) = .wrCram 0xA000#16 0x7E#8 ∧
      decodeWord 0x1BFFF00#25 = .wrCram 0xBFFF#16 0x00#8 := by decide

theorem test_decode_wrWram :
    decodeWord (0b1#1 ++ 0b1100000000000000#16 ++ 0b00010010#8) = .wrWram 0xC000#16 0x12#8 ∧
      decodeWord 0x1DFFF00#25 = .wrWram 0xDFFF#16 0x00#8 := by decide

theorem test_decode_wrEcho :
    decodeWord (0b1#1 ++ 0b1110000000000000#16 ++ 0b10011100#8) = .wrEcho 0xE000#16 0x9C#8 ∧
      decodeWord 0x1FDFF00#25 = .wrEcho 0xFDFF#16 0x00#8 := by decide

theorem test_decode_wrOam :
    decodeWord (0b1#1 ++ 0b1111111000000000#16 ++ 0b00010000#8) = .wrOam 0xFE00#16 0x10#8 ∧
      decodeWord 0x1FE9F00#25 = .wrOam 0xFE9F#16 0x00#8 := by decide

theorem test_decode_wrUnus :
    decodeWord (0b1#1 ++ 0b1111111010100000#16 ++ 0b01000010#8) = .wrUnus 0xFEA0#16 0x42#8 ∧
      decodeWord 0x1FEFF00#25 = .wrUnus 0xFEFF#16 0x00#8 := by decide

theorem test_decode_wrMmio :
    decodeWord (0b1#1 ++ 0b1111111100000000#16 ++ 0b01110111#8) = .wrMmio 0xFF00#16 0x77#8 ∧
      decodeWord 0x1FFFF00#25 = .wrMmio 0xFFFF#16 0x00#8 := by decide

/-- A READ's data field is ignored (30_encoding.md R82). -/
theorem test_decode_read_ignores_data : decodeWord 0x04000A5#25 = .rdRomx 0x4000#16 := by decide

/-- V18, V21, V24: the block edges of the split ranges. -/
theorem test_decode_block_edges :
    decodeWord 0x0EFFF00#25 = .rdEcho 0xEFFF#16 ∧ decodeWord 0x0F7FF00#25 = .rdEcho 0xF7FF#16 ∧
      decodeWord 0x1FBFF00#25 = .wrEcho 0xFBFF#16 0x00#8 ∧ decodeWord 0x1FC0000#25 = .wrEcho 0xFC00#16 0x00#8 ∧
      decodeWord 0x0FE7F00#25 = .rdOam 0xFE7F#16 ∧ decodeWord 0x1FE8000#25 = .wrOam 0xFE80#16 0x00#8 ∧
      decodeWord 0x0FEBF00#25 = .rdUnus 0xFEBF#16 ∧ decodeWord 0x1FEC000#25 = .wrUnus 0xFEC0#16 0x00#8 := by decide

/-- R80: the word has 25 bits and no other length. -/
theorem test_decode_refuses_a_wide_word :
    decode 0x2000000 = .error (.wordTooWide 0x2000000) ∧ decodeTableWord 26 0x2000000 = none ∧
      decodeTableWord 25 0x1FF0477 = some (.wrMmio 0xFF04#16 0x77#8) := ⟨rfl, by decide, by decide⟩

/-- The words of V101 and V133's transaction; a READ is encoded with data 00 (R82). -/
theorem test_encode :
    encode (.wrRamg 0x1FFF#16 0x0A#8) = 0x11FFF0A#25 ∧ encode (.wrCram 0xBFFF#16 0x7E#8) = 0x1BFFF7E#25 ∧
      encode (.rdMmio 0xFF04#16) = 0x0FF0400#25 := by decide

/-- The match/mask check below V27: 0x0FE9F00 selects RD.OAM's second row and no other. -/
theorem test_opcode_row_of_fe9f :
    opcodeRows.filter (fun r => r.selects 0x0FE9F00#25) = [⟨"RD.OAM", 0x0FE8000#25, 0x1FFE000#25⟩] := by decide

/-- The listings of P4 lines 1 and 3 (30_encoding.md R92). -/
theorem test_listing :
    (Instr.rdMmio 0xFF04#16).listing = "RD FF04".toList ∧
      (Instr.wrMmio 0xFF04#16 0x77#8).listing = "WR FF04, 77".toList := by decide

/-! ### One step of each instruction -/

/-- Bytes of the formula ROM of CFG-A at the offsets these tests read. -/
def romA : Memory :=
  ⟨0x00, [(0x3FFF, 0x0F), (0x4000, 0x10), (0x7FFF, 0x1F), (0x8000, 0x20), (0xBFFF, 0x2F), (0xC000, 0x30)]⟩

/-- CFG-A at reset. -/
def cfgA : State := State.atReset ⟨.banked, 4, 4⟩ romA InitContents.forReset

/-- CFG-A with the RAM latch set and a RAM bank selected. -/
def cfgARam (bank : BitVec 4) : State := { cfgA with ramEnable := true, ramBank := bank }

/-- A machine of variant `NONE` at reset. -/
def cfgN : State := State.atReset ⟨.none, 4, 1⟩ romA InitContents.forReset

/-- The state after one transaction, given by its word. -/
def oneStep (s : State) (w : Nat) : Option State :=
  match step (s.withFetchWord 25 w) with
  | .next t => some t
  | .fault _ | .refused _ => none

/-- What one transaction returns, and the events it adds. -/
def answered (s : State) (w : Nat) : Option (Option Byte × List DiagEvent) :=
  (oneStep s w).map (fun t => (t.rdata, t.diags))

/-- V97: the low half shows bank 0 whatever `rom_bank` holds. -/
theorem test_rdRom0_is_fixed : answered { cfgA with romBank := 3 } 0x03FFF00 = some (some 0x0F, []) := by decide

/-- V85: bank 263 mod 4. -/
theorem test_rdRomx_wraps : answered { cfgA with romBank := 0x107 } 0x0400000 = some (some 0x30, []) := by decide

/-- V89: three banks, bank 4 mod 3; a two-bit mask would answer bank 0's byte. -/
theorem test_rdRomx_is_modulo_not_mask :
    answered { cfgA with cfg := ⟨.banked, 3, 0⟩, romBank := 4 } 0x0400000 = some (some 0x10, []) := by decide

/-- V28. -/
theorem test_rdVram_unwritten : answered cfgA 0x0800000 = some (some 0xEE, []) := by decide

/-- V29, its second write. -/
theorem test_wrVram_last_byte :
    (oneStep cfgA 0x19FFFFF).map (fun t => (t.vram.cells, t.rdata)) = some ([(0x1FFF, 0xFF)], none) := by decide

/-- V130. -/
theorem test_rdCram_disabled : answered cfgA 0x0A00000 = some (some 0xFF, []) := by decide

/-- V135: 15 mod 4 = 3. -/
theorem test_rdCram_wraps :
    answered { cfgARam 0xF with sram := ⟨0xEE, [(0x6000, 0x5C)]⟩ } 0x0A00000 = some (some 0x5C, []) := by decide

/-- V134: 5 mod 4 = 1. -/
theorem test_wrCram_wraps : (oneStep (cfgARam 5) 0x1A01099).map (fun t => t.sram.cells) = some [(0x2010, 0x99)] := by
  decide

/-- V131. -/
theorem test_wrCram_disabled_is_lost : (oneStep cfgA 0x1A00011).map (fun t => t.sram.cells) = some [] := by decide

/-- V33's read: WRAM offset 0x1E00. -/
theorem test_rdWram_above_the_echo :
    answered { cfgA with wram := ⟨0xEE, [(0x1E00, 0x33)]⟩ } 0x0DE0000 = some (some 0x33, []) := by decide

/-- V35's write. -/
theorem test_wrWram_last_byte : (oneStep cfgA 0x1DFFF66).map (fun t => t.wram.cells) = some [(0x1FFF, 0x66)] := by decide

/-- V30's read. -/
theorem test_rdEcho_reads_wram :
    answered { cfgA with wram := ⟨0xEE, [(0, 0x12)]⟩ } 0x0E00000 = some (some 0x12, [⟨0xE000#16, .echo⟩]) := by decide

/-- V31's write. -/
theorem test_wrEcho_last_byte :
    (oneStep cfgA 0x1FDFF9C).map (fun t => (t.wram.cells, t.diags)) =
      some ([(0x1DFF, 0x9C)], [⟨0xFDFF#16, .echo⟩]) := by decide

/-- V36's last read. -/
theorem test_rdOam_last_byte : answered { cfgA with oam := ⟨0xEE, [(0x9F, 0x01)]⟩ } 0x0FE9F00 = some (some 0x01, []) := by
  decide

/-- V36's second write. -/
theorem test_wrOam_last_byte : (oneStep cfgA 0x1FE9F01).map (fun t => t.oam.cells) = some [(0x9F, 0x01)] := by decide

/-- V39, with a byte in the storage behind the unusable range (90_conflicts.md C1). -/
theorem test_rdUnus_is_not_oam :
    answered { cfgA with oam := ⟨0xEE, [(0x9F, 0x77), (0xA0, 0x55)]⟩ } 0x0FEA000 =
      some (some 0xFF, [⟨0xFEA0#16, .unusedOam⟩]) := by decide

/-- V37's write. -/
theorem test_wrUnus_is_dropped :
    (oneStep cfgA 0x1FEA042).map (fun t => (t.oam.cells, t.diags)) = some ([], [⟨0xFEA0#16, .unusedOam⟩]) := by decide

/-- V57. -/
theorem test_rdMmio_unhandled : answered cfgA 0x0FF4400 = some (some 0xFF, [⟨0xFF44#16, .unmapped⟩]) := by decide

/-- V59: one call, its byte passed on, no event. -/
theorem test_rdMmio_handled :
    (oneStep { cfgA with ht := [(0xFF04, ⟨7⟩)] } 0x0FF0400).map (fun t => (t.rdata, t.dispatches, t.diags)) =
      some (some (Config.handlerByte 0 7), [.read ⟨7⟩], []) := rfl

/-- V58's write. -/
theorem test_wrMmio_unhandled :
    (oneStep cfgA 0x1FF4412).map (fun t => (t.dispatches, t.diags)) = some ([], [⟨0xFF44#16, .unmapped⟩]) := by decide

/-- V59a's write, at the top of the address space. -/
theorem test_wrMmio_handled :
    (oneStep { cfgA with ht := [(0xFFFF, ⟨7⟩)] } 0x1FFFF1F).map (fun t => (t.dispatches, t.diags)) =
      some ([.write ⟨7⟩ 0x1F], []) := by decide

/-- V101. -/
theorem test_wrRamg_sets : (oneStep cfgA 0x11FFF0A).map (fun t => t.ramEnable) = some true := by decide

/-- V104: all eight bits are compared. -/
theorem test_wrRamg_compares_eight_bits : (oneStep cfgA 0x100001A).map (fun t => t.ramEnable) = some false := by decide

/-- V111: bit 8 is kept. -/
theorem test_wrRomb0_keeps_bit8 :
    (oneStep { cfgA with romBank := 0x100 } 0x12000FF).map (fun t => t.romBank) = some 0x1FF := by decide

/-- V110: zero is kept. -/
theorem test_wrRomb0_zero_is_zero :
    (oneStep { cfgA with romBank := 0x005 } 0x12FFF00).map (fun t => t.romBank) = some 0x000 := by decide

/-- V113: only bit 0 of the byte counts. -/
theorem test_wrRomb1_uses_bit0 :
    (oneStep { cfgA with romBank := 0x105 } 0x13000FE).map (fun t => t.romBank) = some 0x005 := by decide

/-- V114. -/
theorem test_wrRomb1_sets_bit8 :
    (oneStep { cfgA with romBank := 0x005 } 0x13FFFFF).map (fun t => t.romBank) = some 0x105 := by decide

/-- V116: the high four bits are ignored. -/
theorem test_wrRamb_ignores_high_bits : (oneStep cfgA 0x15FFF13).map (fun t => t.ramBank) = some 3 := by decide

/-- V117 in variant `NONE` (41_bank_controller.md R165). -/
theorem test_wrRamb_none : (oneStep cfgN 0x14000FF).map (fun t => t.ramBank) = some 0 := by decide

/-- V119. -/
theorem test_wrRsv6_changes_nothing : oneStep cfgA 0x17FFFFF = some { cfgA with phase := .run } := by decide

/-! ### The selector (B2), and the machine right after reset -/

/-- V63 and V66. -/
theorem test_selector_banked_cells :
    ({ cfgA with romBank := 6 } : State).selector .write 0x7FFF#16 = ⟨0, some 0x00BFFF, none, true, 0⟩ ∧
      (cfgARam 5).selector .write 0xA010#16 = ⟨1, some 0x02010, none, false, 0⟩ := by decide

/-- V68, V70, V71 and V72. -/
theorem test_selector_diagnostics :
    cfgA.selector .read 0xF000#16 = ⟨3, some 0x1000, none, false, 1⟩ ∧
      cfgA.selector .read 0xFEA0#16 = ⟨6, none, none, false, 2⟩ ∧
      ({ cfgA with ht := [(0xFF04, ⟨7⟩)] } : State).selector .write 0xFF04#16 = ⟨5, none, some ⟨7⟩, false, 0⟩ ∧
      cfgA.selector .write 0xFF04#16 = ⟨6, none, none, false, 3⟩ := by decide

/-- 10_state.md R36, and the core's reset is that state. -/
theorem test_reset :
    State.reset.romBank = 1 ∧ State.reset.ramBank = 0 ∧ State.reset.ramEnable = false ∧ cfgN.ramEnable = true ∧
      State.reset.phase = .assembly ∧ State.reset.ht = [] ∧ Sys2Proof.core.reset = State.reset :=
  ⟨rfl, rfl, rfl, rfl, rfl, rfl, rfl⟩

/-- The reset state answers a transaction placed before it, with nothing done first. -/
theorem test_first_transaction_after_reset : answered State.reset 0x0C00000 = some (some 0xEE, []) := by decide

/-! ### Host operations (B7, B8) -/

/-- V150 to V157. -/
theorem test_load_rom_banks :
    romBanksOf 0 = 1 ∧ romBanksOf 1 = 1 ∧ romBanksOf 0x2000 = 1 ∧ romBanksOf 0x4000 = 1 ∧ romBanksOf 0x4001 = 2 ∧
      romBanksOf 0x8000 = 2 ∧ romBanksOf 0xC000 = 3 ∧ romBanksOf 0x200000 = 128 := by decide

/-- A ROM with the given header bytes. -/
def romHeader (type ramsize : Byte) : Memory := Memory.write (Memory.write ⟨0x77, []⟩ 0x0147 type) 0x0149 ramsize

/-- V160 to V170, the accepted headers. -/
theorem test_load_accepts :
    readHeader (romHeader 0x00 0x00) = .ok (.none, 0) ∧ readHeader (romHeader 0x00 0x02) = .ok (.none, 0) ∧
      readHeader (romHeader 0x08 0x02) = .ok (.none, 1) ∧ readHeader (romHeader 0x09 0x03) = .ok (.none, 4) ∧
      readHeader (romHeader 0x19 0x03) = .ok (.banked, 0) ∧ readHeader (romHeader 0x1A 0x02) = .ok (.banked, 1) ∧
      readHeader (romHeader 0x1A 0x03) = .ok (.banked, 4) ∧ readHeader (romHeader 0x1B 0x04) = .ok (.banked, 16) ∧
      readHeader (romHeader 0x1A 0x05) = .ok (.banked, 8) :=
  ⟨rfl, rfl, rfl, rfl, rfl, rfl, rfl, rfl, rfl⟩

/-- V164, V171 to V175, the refused headers. -/
theorem test_load_refuses :
    readHeader (romHeader 0x08 0x00) = .error .ramRequired ∧ readHeader (romHeader 0x1A 0x01) = .error .unknownRamSize ∧
      readHeader (romHeader 0x1A 0x06) = .error .unknownRamSize ∧ readHeader (romHeader 0x01 0x00) = .error .unknownType ∧
      readHeader (romHeader 0x1C 0x00) = .error .unknownType ∧ readHeader (romHeader 0x01 0x07) = .error .unknownType :=
  ⟨rfl, rfl, rfl, rfl, rfl, rfl⟩

/-- The codes of 60_exceptions.md R231. -/
theorem test_error_codes :
    HostError.code (.load .io) = 1 ∧ HostError.code (.load (.invalidHeader .unknownType)) = 2 ∧
      HostError.code (.config (.duplicateHandler 0xFF04#16)) = 3 ∧
      HostError.code (.config (.addressOutOfRange 0xFE00#16)) = 4 ∧
      HostError.code (.config (.lateRegistration 0xFF04#16)) = 5 := by decide

/-- CFG-A with one handler, still in the assembly phase. -/
def cfgAHandled (a : Nat) : State := { cfgA with ht := [(a, ⟨7⟩)] }

/-- V50 to V54. -/
theorem test_register :
    cfgA.register 0xFF04#16 ⟨7⟩ = .ok (cfgAHandled 0xFF04) ∧
      (cfgAHandled 0xFF04).register 0xFF04#16 ⟨0⟩ = .error (.duplicateHandler 0xFF04#16) ∧
      (cfgAHandled 0xFF04).register 0xFF04#16 ⟨7⟩ = .error (.duplicateHandler 0xFF04#16) ∧
      cfgA.register 0xFE00#16 ⟨0⟩ = .error (.addressOutOfRange 0xFE00#16) ∧
      ({ cfgA with phase := .run } : State).register 0xFF04#16 ⟨7⟩ = .error (.lateRegistration 0xFF04#16) :=
  ⟨rfl, rfl, rfl, rfl, rfl⟩

/-- V55. -/
theorem test_register_range_is_all_or_nothing :
    (cfgAHandled 0xFF42).registerRange 0xFF40#16 0xFF43#16 ⟨0⟩ = .error (.duplicateHandler 0xFF42#16) := rfl

/-! ### Witnesses: for each statement with hypotheses, values that meet them, at the ends of each clause's range -/

/-- Both ends of a range lie in it: the hypotheses `lo ≤ a.toNat` and `a.toNat ≤ hi` at their boundary values. -/
abbrev endsIn (lo hi : Nat) : Prop :=
  (lo ≤ (BitVec.ofNat 16 lo).toNat ∧ (BitVec.ofNat 16 lo).toNat ≤ hi) ∧
    (lo ≤ (BitVec.ofNat 16 hi).toNat ∧ (BitVec.ofNat 16 hi).toNat ≤ hi)

/-- CFG-A with one transaction issued. -/
def cfgAIssued (w : BusWord) : State := cfgA.issue w

/-- CFG-A after one transaction. -/
def cfgARun : State := { cfgA with phase := .run }

theorem witness_DecodeEncodeRoundTrip :
    (Instr.wrRomb0 0x2FFF#16 0xFF#8).wf = true ∧ (Instr.rdMmio 0xFFFF#16).wf = true := by decide

theorem witness_EveryWordDecodesAndEncodesBack :
    0x1000000 ≤ (0x1000000#25).toNat ∧ (0x0FFFFFF#25).toNat < 0x1000000 ∧ 0x1FFFFFF < 2 ^ 25 ∧ 2 ^ 25 ≤ 0x2000000 := by decide

theorem witness_StepRunsTheDecodedTransaction :
    (cfgAIssued 0x0400000#25).pending = 0x0400000#25 :: [] ∧ cfgA.pending = [] ∧ 25 ≤ 25 ∧ 0x1FFFFFF < 2 ^ 25 := by decide

theorem witness_ResolveNamesTheCellOfEveryAddress :
    1 ≤ cfgA.cfg.romBanks ∧ endsIn 0x0000 0x3FFF ∧ endsIn 0x4000 0x7FFF ∧ endsIn 0x8000 0x9FFF ∧ endsIn 0xA000 0xBFFF ∧
      ((cfgARam 3).ramEnable = true ∧ 0 < (cfgARam 3).cfg.ramBanks ∧ 1 ≤ (cfgARam 3).cfg.romBanks) ∧
      cfgA.ramEnable = false ∧ endsIn 0xC000 0xDFFF ∧ endsIn 0xE000 0xFDFF ∧ endsIn 0xFE00 0xFE9F ∧
      endsIn 0xFEA0 0xFEFF ∧ (cfgAHandled 0xFF00).handlerAt 0xFF00#16 = some ⟨7⟩ ∧
      (cfgAHandled 0xFFFF).handlerAt 0xFFFF#16 = some ⟨7⟩ ∧ cfgA.handlerAt 0xFFFF#16 = none := by decide

theorem witness_SelectorOutputsFitTheirPorts :
    (cfgA.selector .read 0x7FFF#16).offset = some 0x7FFF ∧
      ((cfgARam 0xF).selector .write 0xBFFF#16).offset = some 0x7FFF ∧ ((cfgARam 0xF).selector .write 0xBFFF#16).target = 1 := by decide

theorem witness_OneEventPerFlaggedTransaction :
    (Instr.rdEcho 0xE000#16).wf = true ∧ cfgA.diagKind 0xE000#16 = some .echo ∧
      (Instr.wrUnus 0xFEFF#16 0x42#8).wf = true ∧ cfgA.diagKind 0xFEFF#16 = some .unusedOam ∧
      (Instr.rdMmio 0xFF00#16).wf = true ∧ cfgA.diagKind 0xFF00#16 = some .unmapped ∧
      (Instr.rdOam 0xFE9F#16).wf = true ∧ cfgA.diagKind 0xFE9F#16 = none := by decide

theorem witness_OneDispatchPerHandledTransaction :
    ((Instr.rdMmio 0xFF00#16).wf = true ∧ 0xFF00 ≤ (Instr.rdMmio 0xFF00#16).addr.toNat ∧
        (cfgAHandled 0xFF00).handlerAt 0xFF00#16 = some ⟨7⟩ ∧ (Instr.rdMmio 0xFF00#16).intent = .read) ∧
      ((Instr.wrMmio 0xFFFF#16 0x1F#8).wf = true ∧ (cfgAHandled 0xFFFF).handlerAt 0xFFFF#16 = some ⟨7⟩ ∧
        (Instr.wrMmio 0xFFFF#16 0x1F#8).intent = .write) ∧
      ((Instr.rdUnus 0xFEFF#16).wf = true ∧ (Instr.rdUnus 0xFEFF#16).addr.toNat < 0xFF00) ∧
      cfgA.handlerAt 0xFF00#16 = none := by decide

theorem witness_RdRom0ReturnsTheFixedBankByte :
    endsIn 0x0000 0x3FFF := by decide

theorem witness_RdRomxReturnsTheSelectedBankByte :
    endsIn 0x4000 0x7FFF := by decide

theorem witness_BankIndicesWrapModuloTheCount :
    endsIn 0x4000 0x7FFF ∧ 1 ≤ cfgA.cfg.romBanks ∧ ({ cfgA with romBank := 4 } : State).romBank.toNat = 4 ∧
      cfgA.cfg.romBanks = 4 ∧ endsIn 0xA000 0xBFFF ∧ 0 < cfgA.cfg.ramBanks ∧ (cfgARam 4).ramBank.toNat = 4 ∧
      (cfgARam 4).cfg.ramBanks = 4 ∧ (State.atReset ⟨.banked, 3, 0⟩ romA InitContents.forReset).cfg.ramBanks = 0 := by decide

theorem witness_WrRamgSetsClearsOrKeepsTheLatch :
    endsIn 0x0000 0x1FFF ∧ cfgA.cfg.variant = .banked ∧ cfgN.cfg.variant = .none ∧
      (0x0B#8 : Byte) ≠ 0x0A ∧ (0x0B#8 : Byte) ≠ 0x00 := by decide

theorem witness_WrRomb0WritesTheLowBankByte :
    endsIn 0x2000 0x2FFF ∧ cfgA.cfg.variant = .banked ∧ cfgN.cfg.variant = .none := by decide

theorem witness_WrRomb1WritesTheNinthBankBit :
    endsIn 0x3000 0x3FFF ∧ cfgA.cfg.variant = .banked ∧ cfgN.cfg.variant = .none := by decide

theorem witness_WrRambWritesTheRamBank :
    endsIn 0x4000 0x5FFF ∧ cfgA.cfg.variant = .banked ∧ cfgN.cfg.variant = .none := by decide

theorem witness_WrRsv6ChangesNothing :
    endsIn 0x6000 0x7FFF := by decide

theorem witness_OnlyBankControlWritesChangeBankState :
    isBankControl (.rdRomx 0x4000#16) = false ∧ isBankControl (.wrCram 0xA000#16 0x11#8) = false ∧
      isBankControl (.wrRsv6 0x7FFF#16 0xFF#8) = true ∧ (Instr.wrRsv6 0x7FFF#16 0xFF#8).wf = true ∧
      (cfgARun.cfg = cfgA.cfg ∧ cfgARun.romBank = cfgA.romBank ∧ cfgARun.ramBank = cfgA.ramBank) := by decide

theorem witness_WritingToRomLeavesWhatIsReadThere :
    endsIn 0x0000 0x7FFF := by decide

theorem witness_RdCramReturnsTheBankByteOrFill :
    endsIn 0xA000 0xBFFF ∧ ((cfgARam 3).ramEnable = true ∧ 0 < (cfgARam 3).cfg.ramBanks) ∧ cfgA.ramEnable = false ∧
      ({ cfgARam 3 with cfg := ⟨.banked, 3, 0⟩ } : State).cfg.ramBanks = 0 := by decide

theorem witness_WrCramStoresOnlyWhileAccessible :
    endsIn 0xA000 0xBFFF ∧ ((cfgARam 3).ramEnable = true ∧ 0 < (cfgARam 3).cfg.ramBanks) ∧ cfgA.ramEnable = false ∧
      ({ cfgARam 3 with cfg := ⟨.banked, 3, 0⟩ } : State).cfg.ramBanks = 0 := by decide

theorem witness_CartridgeRamSurvivesTheDisabledInterval :
    (cfgARam 3).cfg.variant = .banked ∧ (cfgARam 3).accessible = true ∧ endsIn 0x0000 0x1FFF ∧ endsIn 0xA000 0xBFFF := by decide

theorem witness_NoneVariantShowsFixedBanks :
    cfgN.cfg.variant = .none ∧ cfgN.noneIsFixed ∧ 0 < cfgN.cfg.ramBanks ∧ endsIn 0x4000 0x7FFF ∧ endsIn 0xA000 0xBFFF := by decide

/-- A machine with accessible cartridge RAM and two words issued. -/
def issuedTwo (first second : BusWord) : State := ((cfgARam 3).issue first).issue second

theorem witness_BankWriteGovernsTheNextTransaction :
    (issuedTwo 0 0).cfg.variant = .banked ∧ (issuedTwo 0 0).accessible = true ∧ 0 < (issuedTwo 0 0).cfg.ramBanks ∧
      endsIn 0x0000 0x7FFF ∧ endsIn 0x0000 0x1FFF ∧ endsIn 0x2000 0x2FFF ∧ endsIn 0x3000 0x3FFF ∧
      endsIn 0x4000 0x5FFF ∧ endsIn 0x4000 0x7FFF ∧ endsIn 0xA000 0xBFFF ∧
      ((0x0B#8 : Byte) ≠ 0x0A ∧ (0x0B#8 : Byte) ≠ 0x00) ∧
      (issuedTwo (packWord .write 0x3FFF#16 0x01#8) (packWord .read 0x7FFF#16 0x00#8)).pending =
        packWord .write 0x3FFF#16 0x01#8 :: packWord .read 0x7FFF#16 0x00#8 :: [] ∧
      (issuedTwo (packWord .write 0x1FFF#16 0x0A#8) (packWord .read 0xBFFF#16 0x00#8)).pending =
        packWord .write 0x1FFF#16 0x0A#8 :: packWord .read 0xBFFF#16 0x00#8 :: [] ∧
      (issuedTwo (packWord .write 0x5FFF#16 0x13#8) (packWord .write 0xA000#16 0x11#8)).pending =
        packWord .write 0x5FFF#16 0x13#8 :: packWord .write 0xA000#16 0x11#8 :: [] := by decide

theorem witness_RdVramReturnsTheVramByte :
    endsIn 0x8000 0x9FFF := by decide

theorem witness_WrVramStoresOneByte :
    endsIn 0x8000 0x9FFF := by decide

theorem witness_RdWramReturnsTheWramByte :
    endsIn 0xC000 0xDFFF := by decide

theorem witness_RdEchoReturnsTheAliasedByte :
    endsIn 0xE000 0xFDFF := by decide

theorem witness_WrEchoStoresTheAliasedByte :
    endsIn 0xE000 0xFDFF := by decide

theorem witness_RdOamReturnsTheOamByte :
    endsIn 0xFE00 0xFE9F := by decide

theorem witness_WrOamStoresOneByte :
    endsIn 0xFE00 0xFE9F := by decide

theorem witness_RdUnusReturnsFill :
    endsIn 0xFEA0 0xFEFF := by decide

theorem witness_WrUnusIsDropped :
    endsIn 0xFEA0 0xFEFF := by decide

theorem witness_WrWramStoresOneByte :
    endsIn 0xC000 0xDFFF ∧ endsIn 0xC000 0xDDFF := by decide

theorem witness_OnlyEchoPairsShareWritableCells :
    endsIn 0xE000 0xFDFF ∧
      (endsIn 0x0000 0x3FFF ∧ ({ cfgA with romBank := 4 } : State).romBank.toNat % cfgA.cfg.romBanks = 0) ∧
      ((0xDDFF#16 : Addr).toNat < (0xFDFF#16 : Addr).toNat ∧ (cfgA.resolve 0xDDFF#16 .read).offset = some 0x1DFF ∧
        cfgA.resolve 0xDDFF#16 .read = cfgA.resolve 0xFDFF#16 .read) ∧
      ({ cfgA with romBank := 4 } : State).resolve 0x3FFF#16 .read =
        ({ cfgA with romBank := 4 } : State).resolve 0x7FFF#16 .read ∧
      (5#4 : BitVec 4).toNat % (cfgARam 1).cfg.ramBanks = (cfgARam 1).ramBank.toNat % (cfgARam 1).cfg.ramBanks := by decide

theorem witness_WriteThenReadReturnsTheByte :
    endsIn 0x8000 0x9FFF ∧ endsIn 0xC000 0xFE9F ∧ endsIn 0xA000 0xBFFF ∧
      ((cfgARam 3).ramEnable = true ∧ 0 < (cfgARam 3).cfg.ramBanks) ∧
      (((cfgARam 3).issue (packWord .write 0xBFFF#16 0x7E#8)).issue (packWord .read 0xBFFF#16 0x00#8)).pending =
        packWord .write 0xBFFF#16 0x7E#8 :: packWord .read 0xBFFF#16 0x00#8 :: [] := by decide

theorem witness_AWriteLeavesEveryOtherCell :
    endsIn 0x8000 0xFEFF ∧ endsIn 0x0000 0xFEFF ∧ cfgA.resolve 0xFEFF#16 .write = .unmapped ∧
      cfgA.resolve 0xDFFF#16 .write ≠ cfgA.resolve 0xFDFF#16 .read := by decide

theorem witness_RdMmioCallsTheHandlerOrFills :
    endsIn 0xFF00 0xFFFF ∧ (cfgAHandled 0xFF00).handlerAt 0xFF00#16 = some ⟨7⟩ ∧ cfgA.handlerAt 0xFFFF#16 = none := by decide

theorem witness_WrMmioCallsTheHandlerOrDrops :
    endsIn 0xFF00 0xFFFF ∧ (cfgAHandled 0xFF00).handlerAt 0xFF00#16 = some ⟨7⟩ ∧ cfgA.handlerAt 0xFFFF#16 = none := by decide

theorem witness_WriteLeavesNoReadData :
    (Instr.rdOam 0xFE00#16).intent = .read ∧ (Instr.wrOam 0xFE00#16 0x10#8).intent = .write := by decide

theorem witness_AWriteChangesAtMostOneThing :
    ((Instr.rdMmio 0xFFFF#16).wf = true ∧ (Instr.rdMmio 0xFFFF#16).intent = .read) ∧
      ((Instr.wrRomb1 0x3FFF#16 0xFF#8).wf = true ∧ (Instr.wrRomb1 0x3FFF#16 0xFF#8).intent = .write) ∧
      ((Instr.wrCram 0xBFFF#16 0x7E#8).wf = true ∧ (Instr.wrCram 0xBFFF#16 0x7E#8).intent = .write) := by decide

theorem witness_ResetSatisfiesTheInvariant :
    1 ≤ cfgA.cfg.romBanks ∧ romA.wf ∧ romA.within (romSizeOf cfgA.cfg) ∧ InitContents.forReset.fits cfgA.cfg := by decide

/-- A machine with a transaction issued, and the state its step answers. -/
theorem witness_StepKeepsTheInvariant :
    (cfgAIssued 0x1FE9F01#25).Inv ∧ ∃ t, step (cfgAIssued 0x1FE9F01#25) = .next t := ⟨by decide, _, rfl⟩

/-- A short image whose header bytes are zero, as in CFG-B. -/
def shortImage : List Byte := List.replicate 0x150 0x00

theorem shortImage_header : readHeader (padImage shortImage) = .ok (.none, 0) := by
  simp [-List.reduceReplicate, readHeader, padImage_read, shortImage, cartridgeType, ramSizeBanks]

theorem shortImage_loads :
    load (some shortImage) InitContents.forReset =
      .ok (State.atReset ⟨.none, romBanksOf shortImage.length, 0⟩ (padImage shortImage) InitContents.forReset) := by
  simp only [load, shortImage_header]

theorem witness_ReachableStatesSatisfyTheInvariant :
    Reachable (State.atReset ⟨.none, romBanksOf shortImage.length, 0⟩ (padImage shortImage) InitContents.forReset) :=
  .loaded shortImage_loads ⟨by decide, by decide, by decide, by decide⟩

theorem witness_StepKeepsConfigurationRomAndHandlers :
    cfgARun.phase = .run ∧ (cfgAIssued 0x0400000#25).pending ≠ [] := by decide

/-- Two machines that differ in `OAM[0xA0]`, and a step of the first. -/
theorem witness_UnreachableCellsAreInvisible :
    (cfgAIssued 0x0FEA000#25).sameReachable { cfgAIssued 0x0FEA000#25 with oam := ⟨0xEE, [(0xA0, 0x55)]⟩ } ∧
      ∃ t, step (cfgAIssued 0x0FEA000#25) = .next t := by
  refine ⟨⟨rfl, fun _ _ => rfl, fun o ho => ?_⟩, _, rfl⟩
  have : 0xA0 ≠ o := by omega
  simp [Memory.read, sparseFind, this, cfgAIssued, State.issue, cfgA, State.atReset, InitContents.forReset,
    Memory.unlisted]

theorem witness_LoadPadsTheImage :
    ∃ s, load (some shortImage) InitContents.forReset = .ok s ∧ shortImage.length ≤ 0x4000 ∧ 0x4000 < 0x4001 ∧
      shortImage[0]? = some 0x00 := ⟨_, shortImage_loads, by simp [-List.reduceReplicate, shortImage], by decide, rfl⟩

/-- An image of zeros up to the header, then its three bytes at 0x0147 to 0x0149. -/
def headerImage (type ramsize : Byte) : List Byte := List.replicate 0x147 0x00 ++ [type, 0x00, ramsize]

theorem headerImage_read (type ramsize : Byte) :
    (padImage (headerImage type ramsize)).read 0x0147 = type ∧
      (padImage (headerImage type ramsize)).read 0x0149 = ramsize := by
  simp [-List.reduceReplicate, padImage_read, headerImage]

/-- `headerImage` meets each clause by its two bytes: an unknown type, an unknown RAM size, RAM required but none
declared, and an accepted pair. -/
theorem witness_LoadReadsTheHeader :
    (0x01#8 : Byte) ∉ ([0x00, 0x08, 0x09, 0x19, 0x1A, 0x1B] : List Byte) ∧
      ((0x1A#8 : Byte) ∈ ([0x00, 0x08, 0x09, 0x19, 0x1A, 0x1B] : List Byte) ∧
        (0x06#8 : Byte) ∉ ([0x00, 0x02, 0x03, 0x04, 0x05] : List Byte)) ∧
      ((0x08#8 : Byte) ∈ ([0x08, 0x09, 0x1A, 0x1B] : List Byte) ∧
        (padImage (headerImage 0x08 0x00)).read 0x0149 = 0x00) ∧
      (padImage (headerImage 0x1A 0x03)).read 0x0147 = 0x1A ∧ (padImage (headerImage 0x1A 0x03)).read 0x0149 = 0x03 :=
  ⟨by decide, by decide, ⟨by decide, (headerImage_read _ _).2⟩, headerImage_read _ _⟩

/-- Variant `NONE` by `shortImage`, `BANKED` by an image with type 19. -/
theorem witness_LoadLeavesTheResetValues :
    (∃ s, load (some shortImage) InitContents.forReset = .ok s ∧ s.cfg.variant = .none) ∧
      readHeader (padImage (headerImage 0x19 0x00)) = .ok (.banked, 0) := by
  refine ⟨⟨_, shortImage_loads, rfl⟩, ?_⟩
  simp [readHeader, headerImage_read, cartridgeType, ramSizeBanks]

theorem witness_RegisterSetsOneEntryOrFails :
    cfgARun.phase = .run ∧ (cfgA.phase = .assembly ∧ (0xFEFF#16 : Addr).toNat < 0xFF00) ∧
      ((cfgAHandled 0xFFFF).phase = .assembly ∧ (cfgAHandled 0xFFFF).handlerAt 0xFFFF#16 = some ⟨7⟩) ∧
      (endsIn 0xFF00 0xFFFF ∧ cfgA.handlerAt 0xFF00#16 = none) := by decide

/-- The four clauses: late, out of range, a duplicate at the last address of the range, and a free range. -/
theorem witness_RegisterRangeIsAllOrNothing :
    cfgARun.phase = .run ∧ (cfgA.phase = .assembly ∧ (0xFEFF#16 : Addr).toNat ≤ (0xFF00#16 : Addr).toNat) ∧
      ((cfgAHandled 0xFF43).phase = .assembly ∧ (cfgAHandled 0xFF43).handlerAt 0xFF43#16 = some ⟨7⟩ ∧
        ∀ y : Addr, 0xFF40 ≤ y.toNat → y.toNat < 0xFF43 → (cfgAHandled 0xFF43).handlerAt y = none) ∧
      ∀ y : Addr, 0xFF80 ≤ y.toNat → y.toNat ≤ 0xFFFE → cfgA.handlerAt y = none := by
  refine ⟨rfl, by decide, ⟨rfl, rfl, fun y _ h => ?_⟩, fun _ _ _ => rfl⟩
  have : 0xFF43 ≠ y.toNat := by omega
  simp [State.handlerAt, cfgAHandled, sparseFind, this]

theorem witness_RegistrationEndsWithTheFirstTransaction :
    (cfgAIssued 0x0400000#25).pending = 0x0400000#25 :: [] ∧ ∃ t, runSteps (3 + 1) (cfgAIssued 0x0400000#25) = .next t :=
  ⟨rfl, _, rfl⟩

/-- One handler at 0xFF04. -/
def oneHandler : Registration := ⟨0xFF04#16, 0xFF04#16, ⟨7⟩⟩

/-- Another at 0xFF05 to 0xFF07, beside the first. -/
def nextHandler : Registration := ⟨0xFF05#16, 0xFF07#16, ⟨8⟩⟩

/-- `shortImage` booted with one handler. -/
def bootedOne : State :=
  { State.atReset ⟨.none, romBanksOf shortImage.length, 0⟩ (padImage shortImage) InitContents.forReset with
    ht := [(0xFF04, ⟨7⟩)] }

theorem bootedOne_boots : boot (some shortImage) InitContents.forReset [oneHandler] = .ok bootedOne := by
  simp only [boot, shortImage_loads]
  rfl

/-- The clauses: a load error; a call that fails after one that succeeded; a boot that succeeds; two calls in the window
that touch and cover no address twice. -/
theorem witness_BootLeavesTheLoadedMachineWithItsHandlers :
    (∀ r ∈ [oneHandler, nextHandler], r.first.toNat ≤ r.last.toNat) ∧
      load none InitContents.forReset = .error .io ∧
      ([oneHandler, oneHandler] = [oneHandler] ++ oneHandler :: [] ∧
        boot (some shortImage) InitContents.forReset [oneHandler] = .ok bootedOne ∧
        bootedOne.registerRange oneHandler.first oneHandler.last oneHandler.handler =
          .error (.duplicateHandler 0xFF04#16)) ∧
      (∃ s, load (some shortImage) InitContents.forReset = .ok s) ∧
      (∀ r ∈ [oneHandler, nextHandler], 0xFF00 ≤ r.first.toNat) ∧
      [oneHandler, nextHandler].Pairwise
        (fun r q => r.last.toNat < q.first.toNat ∨ q.last.toNat < r.first.toNat) :=
  ⟨by decide, rfl, ⟨rfl, bootedOne_boots, rfl⟩, ⟨_, shortImage_loads⟩, by decide, by decide⟩

end Sys2Proof.Tests
end

section
/-! PROOFS. Who changes what (10_state.md R37): what a WRITE's address resolves to in each writable region, what an update of
half of `rom_bank` keeps, and from these that a READ changes `phase` only and a WRITE at most one thing. -/

namespace Sys2Proof.Machine

/-! ### One cell of a region -/

theorem Memory.read_write_of_ne (m : Memory) {o p : Nat} (v : Byte) (h : p ≠ o) : (m.write o v).read p = m.read p := by
  rw [Memory.read_write, if_neg h]

/-! ### What an address resolves to -/

section
variable (s : State) {a : Addr} (i : Intent)

theorem State.resolve_vram (h : region a = .vram) : s.resolve a i = .vramCell (vramOffset a) := by
  simp [State.resolve, h]

theorem State.resolve_cram (h : region a = .cram) (ha : s.accessible = true) :
    s.resolve a i = .ramCell (s.translateRam a) := by
  simp [State.resolve, h, ha]

theorem State.resolve_wram (h : region a = .wram) : s.resolve a i = .wramCell (wramOffset a) := by
  simp [State.resolve, h]

theorem State.resolve_echo (h : region a = .echo) : s.resolve a i = .wramCell (echoOffset a) := by
  simp [State.resolve, h]

theorem State.resolve_oam (h : region a = .oam) : s.resolve a i = .oamCell (oamOffset a) := by
  simp [State.resolve, h]

theorem State.resolve_mmio_handled {g : Handler} (h : region a = .mmio) (hg : s.handlerAt a = some g) :
    s.resolve a i = .mmioHandler g := by
  simp [State.resolve, h, hg]

end

/-! ### The half of `rom_bank` an update keeps -/

section
variable (v : Byte) (s : State)

theorem State.writeRomBankLow_keeps_bit8 :
    (s.writeRomBankLow v).romBank.toNat / 0x100 = s.romBank.toNat / 0x100 := by
  cases h : s.cfg.variant with
  | none => rw [State.writeRomBankLow_none v s h]
  | banked =>
    have hv := v.isLt
    rw [State.writeRomBankLow_banked v s h, withLowByte_toNat]
    omega

theorem State.writeRomBankHigh_keeps_low_byte :
    (s.writeRomBankHigh v).romBank.toNat % 0x100 = s.romBank.toNat % 0x100 := by
  cases h : s.cfg.variant with
  | none => rw [State.writeRomBankHigh_none v s h]
  | banked =>
    rw [State.writeRomBankHigh_banked v s h, withNinthBit_toNat]
    omega

end

/-! ### One change per transaction -/

/-- Settles O48, by cases on the operation: a READ only answers; a bank-control WRITE reaches one register or none (R158 to
R162); a WRITE to a storage region reaches the cell its address resolves to, or none; a WRITE to MMIO calls the handler, or
emits an event. -/
theorem aWriteChangesAtMostOneThing : Obligations.AWriteChangesAtMostOneThing := by
  intro i s hwf
  -- For a WRITE, `iterate n right` goes to the statement's alternative: 0 `rom_bank`, 1 `ram_bank`, 2 `ram_enable`,
  -- 3 `SRAM`, 4 `VRAM`, 5 `WRAM`, 6 `OAM`, 7 the device, 8 nothing.
  cases i with
  | rdRom0 a | rdRomx a | rdVram a | rdCram a | rdWram a | rdEcho a | rdOam a | rdUnus a =>
    exact ⟨_, rfl, fun _ => rfl, nofun⟩
  | rdMmio a =>
    cases hg : s.handlerAt a with
    | some g => exact ⟨s.start.callRead g, by simp [exec, execRdMmio, hg], fun _ => rfl, nofun⟩
    | none => exact ⟨(s.start.answer fillByte).emit a .unmapped, by simp [exec, execRdMmio, hg], fun _ => rfl, nofun⟩
  | wrRamg a d =>
    have ha := inWindow_iff.1 hwf
    refine ⟨s.start.writeRamGate d, rfl, nofun, fun _ => ?_⟩
    iterate 2 right
    refine .inl ⟨?_, show a.toNat ≤ _ by omega⟩
    rw [State.writeRamGate_frame]
    rfl
  | wrRomb0 a d =>
    have ha := inWindow_iff.1 hwf
    refine ⟨s.start.writeRomBankLow d, rfl, nofun, fun _ => ?_⟩
    refine .inl ⟨?_, show a.toNat ≤ _ by omega, .inl (s.start.writeRomBankLow_keeps_bit8 d)⟩
    rw [State.writeRomBankLow_frame]
    rfl
  | wrRomb1 a d =>
    have ha := inWindow_iff.1 hwf
    refine ⟨s.start.writeRomBankHigh d, rfl, nofun, fun _ => ?_⟩
    refine .inl ⟨?_, show a.toNat ≤ _ by omega, .inr (s.start.writeRomBankHigh_keeps_low_byte d)⟩
    rw [State.writeRomBankHigh_frame]
    rfl
  | wrRamb a d =>
    have ha := inWindow_iff.1 hwf
    refine ⟨s.start.writeRamBank d, rfl, nofun, fun _ => ?_⟩
    right
    refine .inl ⟨?_, show a.toNat ≤ _ by omega⟩
    rw [State.writeRamBank_frame]
    rfl
  | wrVram a d =>
    have hr := region_vram.2 (inWindow_iff.1 hwf)
    refine ⟨_, rfl, nofun, fun _ => ?_⟩
    iterate 4 right
    exact .inl ⟨_, s.resolve_vram _ hr, rfl, fun _ => Memory.read_write_of_ne _ _⟩
  | wrCram a d =>
    have hr := region_cram.2 (inWindow_iff.1 hwf)
    cases ha : s.accessible with
    | true =>
      refine ⟨s.start.storeSram (s.translateRam a) d, by simp [exec, execWrCram, ha], nofun, fun _ => ?_⟩
      iterate 3 right
      exact .inl ⟨_, s.resolve_cram _ hr ha, rfl, fun _ => Memory.read_write_of_ne _ _⟩
    | false =>
      refine ⟨s.start, by simp [exec, execWrCram, ha], nofun, fun _ => ?_⟩
      iterate 8 right
      rfl
  | wrWram a d =>
    have hr := region_wram.2 (inWindow_iff.1 hwf)
    refine ⟨_, rfl, nofun, fun _ => ?_⟩
    iterate 5 right
    exact .inl ⟨_, s.resolve_wram _ hr, rfl, fun _ => Memory.read_write_of_ne _ _⟩
  | wrEcho a d =>
    have hr := region_echo.2 (inWindow_iff.1 hwf)
    refine ⟨_, rfl, nofun, fun _ => ?_⟩
    iterate 5 right
    exact .inl ⟨_, s.resolve_echo _ hr, rfl, fun _ => Memory.read_write_of_ne _ _⟩
  | wrOam a d =>
    have hr := region_oam.2 (inWindow_iff.1 hwf)
    refine ⟨_, rfl, nofun, fun _ => ?_⟩
    iterate 6 right
    exact .inl ⟨_, s.resolve_oam _ hr, rfl, fun _ => Memory.read_write_of_ne _ _⟩
  | wrMmio a d =>
    have hr := region_mmio.2 (inWindow_iff.1 hwf).1
    cases hg : s.handlerAt a with
    | some g =>
      refine ⟨s.start.callWrite g d, by simp [exec, execWrMmio, hg], nofun, fun _ => ?_⟩
      iterate 7 right
      exact .inl ⟨g, s.resolve_mmio_handled _ hr hg, rfl⟩
    | none =>
      refine ⟨s.start.emit a .unmapped, by simp [exec, execWrMmio, hg], nofun, fun _ => ?_⟩
      iterate 8 right
      rfl
  | wrRsv6 a d | wrUnus a d =>
    refine ⟨_, rfl, nofun, fun _ => ?_⟩
    iterate 8 right
    rfl

end Sys2Proof.Machine
end

section
/-! PROOFS. Which addresses share a cell (20_memory.md R57): where an address must lie to resolve to a given cell, when two
ROM or cartridge-RAM addresses translate to one offset, and from these that only the echo pairs, and the two ROM halves at
effective bank 0, alias. -/

namespace Sys2Proof.Machine

/-! ### Addresses a fixed distance apart -/

theorem addr_sub_echoDistance_toNat {a : Addr} (h : 0x2000 ≤ a.toNat) : (a - 0x2000#16).toNat = a.toNat - 0x2000 :=
  BitVec.toNat_sub_of_le h

theorem addr_add_romHalf_toNat {a : Addr} (h : a.toNat ≤ 0x3FFF) : (a + 0x4000#16).toNat = a.toNat + 0x4000 :=
  BitVec.toNat_add_of_lt (show a.toNat + 0x4000 < 2 ^ 16 by omega)

theorem region_primary_of_echo {a : Addr} (h : region a = .echo) : region (a - 0x2000#16) = .wram := by
  obtain ⟨lo, hi⟩ := region_echo.1 h
  rw [region_wram, addr_sub_echoDistance_toNat (by omega)]
  omega

theorem wramOffset_primary_of_echo {a : Addr} (h : region a = .echo) : wramOffset (a - 0x2000#16) = echoOffset a := by
  obtain ⟨lo, hi⟩ := region_echo.1 h
  rw [wramOffset_eq, echoOffset_eq, addr_sub_echoDistance_toNat (by omega)]
  omega

/-! ### Translation -/

section
variable (s : State) {a b : Addr}

theorem State.translateRom_upper_half (ha : a.toNat ≤ 0x3FFF) (hbank : s.romBank.toNat % s.cfg.romBanks = 0) :
    s.translateRom (a + 0x4000#16) = s.translateRom a := by
  have hadd := addr_add_romHalf_toNat ha
  rw [s.translateRom_high (by omega), s.translateRom_low ha, hbank, hadd]
  omega

/-- Two ROM addresses translate to one offset only across the halves, and only when the switchable half shows bank 0. -/
theorem State.translateRom_collision (hlt : a.toNat < b.toNat) (heq : s.translateRom a = s.translateRom b) :
    a.toNat ≤ 0x3FFF ∧ b.toNat = a.toNat + 0x4000 ∧ s.romBank.toNat % s.cfg.romBanks = 0 := by
  rcases Nat.lt_or_ge b.toNat 0x4000 with hb | hb
  · rw [s.translateRom_low (by omega), s.translateRom_low (by omega)] at heq
    omega
  · rw [s.translateRom_high hb] at heq
    rcases Nat.lt_or_ge a.toNat 0x4000 with ha | ha
    · rw [s.translateRom_low (by omega)] at heq
      omega
    · rw [s.translateRom_high ha] at heq
      omega

theorem State.translateRam_injective (ha : 0xA000 ≤ a.toNat) (hb : 0xA000 ≤ b.toNat)
    (heq : s.translateRam a = s.translateRam b) : a.toNat = b.toNat := by
  simp only [State.translateRam, cramOffset_eq] at heq
  omega

theorem State.translateRam_congr_bank (a : Addr) {r : BitVec 4}
    (h : r.toNat % s.cfg.ramBanks = s.ramBank.toNat % s.cfg.ramBanks) :
    ({ s with ramBank := r } : State).translateRam a = s.translateRam a := by
  simp only [State.translateRam, h]

end

/-! ### Where an address must lie to resolve to a target -/

section
variable (s : State) {a : Addr} (i : Intent)

theorem State.resolve_rom0 (h : region a = .rom0) : s.resolve a i = .romCell (s.translateRom a) := by
  simp [State.resolve, h]

theorem State.resolve_romx (h : region a = .romx) : s.resolve a i = .romCell (s.translateRom a) := by
  simp [State.resolve, h]

/-- What it says of an address that it resolves to a target: the ranges of R52 that lead there, and the cell's offset. -/
def State.targetLiesAt (s : State) (a : Addr) : Target → Prop
  | .romCell o => a.toNat ≤ 0x7FFF ∧ o = s.translateRom a
  | .ramCell o => 0xA000 ≤ a.toNat ∧ a.toNat ≤ 0xBFFF ∧ o = s.translateRam a
  | .vramCell o => 0x8000 ≤ a.toNat ∧ a.toNat ≤ 0x9FFF ∧ o = a.toNat - 0x8000
  | .wramCell o =>
    (0xC000 ≤ a.toNat ∧ a.toNat ≤ 0xDFFF ∧ o = a.toNat - 0xC000) ∨
    (0xE000 ≤ a.toNat ∧ a.toNat ≤ 0xFDFF ∧ o = a.toNat - 0xE000)
  | .oamCell o => 0xFE00 ≤ a.toNat ∧ a.toNat ≤ 0xFE9F ∧ o = a.toNat - 0xFE00
  | .mmioHandler g => 0xFF00 ≤ a.toNat ∧ s.handlerAt a = some g
  | .unmapped => (0xA000 ≤ a.toNat ∧ a.toNat ≤ 0xBFFF) ∨ 0xFEA0 ≤ a.toNat

theorem State.resolve_targetLiesAt (a : Addr) : s.targetLiesAt a (s.resolve a i) := by
  cases hr : region a with
  | rom0 =>
    have := region_rom0.1 hr
    rw [s.resolve_rom0 i hr]
    exact ⟨by omega, rfl⟩
  | romx =>
    rw [s.resolve_romx i hr]
    exact ⟨(region_romx.1 hr).2, rfl⟩
  | vram =>
    obtain ⟨lo, hi⟩ := region_vram.1 hr
    rw [s.resolve_vram i hr]
    exact ⟨lo, hi, vramOffset_eq a⟩
  | cram =>
    obtain ⟨lo, hi⟩ := region_cram.1 hr
    cases hacc : s.accessible with
    | true =>
      rw [s.resolve_cram i hr hacc]
      exact ⟨lo, hi, rfl⟩
    | false =>
      simp only [State.resolve, hr, hacc]
      exact .inl ⟨lo, hi⟩
  | wram =>
    obtain ⟨lo, hi⟩ := region_wram.1 hr
    rw [s.resolve_wram i hr]
    exact .inl ⟨lo, hi, wramOffset_eq a⟩
  | echo =>
    obtain ⟨lo, hi⟩ := region_echo.1 hr
    rw [s.resolve_echo i hr]
    exact .inr ⟨lo, hi, echoOffset_eq a⟩
  | oam =>
    obtain ⟨lo, hi⟩ := region_oam.1 hr
    rw [s.resolve_oam i hr]
    exact ⟨lo, hi, oamOffset_eq a⟩
  | unus =>
    simp only [State.resolve, hr]
    exact .inr (region_unus.1 hr).1
  | mmio =>
    have lo := region_mmio.1 hr
    cases hg : s.handlerAt a with
    | some g =>
      rw [s.resolve_mmio_handled i hr hg]
      exact ⟨lo, hg⟩
    | none =>
      simp only [State.resolve, hr, hg]
      exact .inr (by omega)

end

/-! ### Aliases -/

section
variable (s : State) {a b : Addr} (i : Intent)

theorem State.resolve_primary_of_echo (h : region a = .echo) : s.resolve (a - 0x2000#16) i = s.resolve a i := by
  rw [s.resolve_wram i (region_primary_of_echo h), s.resolve_echo i h, wramOffset_primary_of_echo h]

theorem State.resolve_upper_romHalf (ha : a.toNat ≤ 0x3FFF) (hbank : s.romBank.toNat % s.cfg.romBanks = 0) :
    s.resolve (a + 0x4000#16) i = s.resolve a i := by
  have hadd := addr_add_romHalf_toNat ha
  rw [s.resolve_romx i (region_romx.2 (by omega)), s.resolve_rom0 i (region_rom0.2 ha),
    s.translateRom_upper_half ha hbank]

/-- Two addresses that resolve to one cell, by cases on the region that holds the cell. -/
theorem State.sameCell_cases {o : Nat} (hlt : a.toNat < b.toNat) (hcell : (s.resolve a i).offset = some o)
    (hsame : s.resolve a i = s.resolve b i) :
    (0xC000 ≤ a.toNat ∧ a.toNat ≤ 0xDDFF ∧ b.toNat = a.toNat + 0x2000) ∨
    (a.toNat ≤ 0x3FFF ∧ b.toNat = a.toNat + 0x4000 ∧ s.romBank.toNat % s.cfg.romBanks = 0) := by
  have ha := s.resolve_targetLiesAt i a
  have hb := s.resolve_targetLiesAt i b
  rw [← hsame] at hb
  cases htarget : s.resolve a i <;> rw [htarget] at ha hb hcell
  case romCell p =>
    obtain ⟨-, hpa⟩ := ha
    obtain ⟨-, hpb⟩ := hb
    exact .inr (s.translateRom_collision hlt (hpa.symm.trans hpb))
  case ramCell p =>
    obtain ⟨loa, -, hpa⟩ := ha
    obtain ⟨lob, -, hpb⟩ := hb
    have := s.translateRam_injective loa lob (hpa.symm.trans hpb)
    omega
  case vramCell p =>
    obtain ⟨loa, -, hpa⟩ := ha
    obtain ⟨lob, -, hpb⟩ := hb
    omega
  case wramCell p =>
    left
    obtain ⟨loa, hia, hpa⟩ | ⟨loa, hia, hpa⟩ := ha <;> obtain ⟨lob, hib, hpb⟩ | ⟨lob, hib, hpb⟩ := hb <;> omega
  case oamCell p =>
    obtain ⟨loa, -, hpa⟩ := ha
    obtain ⟨lob, -, hpb⟩ := hb
    omega
  case mmioHandler g => nomatch hcell
  case unmapped => nomatch hcell

theorem rdWram_after_wrEcho (v : Byte) (h : region a = .echo) :
    ∃ t u, exec (.wrEcho a v) s = .next t ∧ exec (.rdWram (a - 0x2000#16)) t = .next u ∧ u.rdata = some v := by
  refine ⟨_, _, rfl, rfl, ?_⟩
  simp [Memory.read_write, wramOffset_primary_of_echo h]

theorem rdEcho_after_wrWram (v : Byte) (h : region a = .echo) :
    ∃ t u, exec (.wrWram (a - 0x2000#16) v) s = .next t ∧ exec (.rdEcho a) t = .next u ∧ u.rdata = some v := by
  refine ⟨_, _, rfl, rfl, ?_⟩
  simp [Memory.read_write, wramOffset_primary_of_echo h]

end

/-- Settles O40: an echo address and its primary address have one `WRAM` offset; the two ROM halves translate alike at
effective bank 0; the converse is by the region of the shared cell. -/
theorem onlyEchoPairsShareWritableCells : Obligations.OnlyEchoPairsShareWritableCells := by
  refine ⟨fun s a v lo hi => ?_, fun s a i ha hbank => s.resolve_upper_romHalf i ha hbank,
    fun s a b i o hlt hcell hsame => s.sameCell_cases i hlt hcell hsame, fun s a r h => s.translateRam_congr_bank a h⟩
  have hr := region_echo.2 ⟨lo, hi⟩
  refine ⟨rdWram_after_wrEcho s v hr, rdEcho_after_wrWram s v hr, echoOffset a, ?_, fun i => ?_⟩
  · rw [echoOffset_eq]
    omega
  · exact ⟨s.resolve_echo i hr, (s.resolve_primary_of_echo i hr).trans (s.resolve_echo i hr)⟩

end Sys2Proof.Machine
end

section
/-! PROOFS. The READ operation map (30_encoding.md R83): a decoded operation is well formed, so its address lies in its own
range; the converse is the decoder's equation for that range. -/

namespace Sys2Proof.Machine

theorem window_of_decodeRead {a : Addr} {i : Instr} {lo hi : Nat} (h : decodeRead a = i)
    (hw : i.wf = inWindow lo hi a) : lo ≤ a.toNat ∧ a.toNat ≤ hi := by
  have hwf := decodeRead_wf a
  rw [h, hw] at hwf
  exact inWindow_iff.1 hwf

/-- Settles O6: per range, `window_of_decodeRead` one way and the decoder's equation the other. -/
theorem readOperationMap : Obligations.ReadOperationMap := by
  intro a d
  rw [show decodeAccess .read a d = decodeRead a from rfl]
  exact ⟨⟨fun h => (window_of_decodeRead h rfl).2, decodeRead_rom0⟩,
    ⟨fun h => window_of_decodeRead h rfl, fun ⟨lo, hi⟩ => decodeRead_romx lo hi⟩,
    ⟨fun h => window_of_decodeRead h rfl, fun ⟨lo, hi⟩ => decodeRead_vram lo hi⟩,
    ⟨fun h => window_of_decodeRead h rfl, fun ⟨lo, hi⟩ => decodeRead_cram lo hi⟩,
    ⟨fun h => window_of_decodeRead h rfl, fun ⟨lo, hi⟩ => decodeRead_wram lo hi⟩,
    ⟨fun h => window_of_decodeRead h rfl, fun ⟨lo, hi⟩ => decodeRead_echo lo hi⟩,
    ⟨fun h => window_of_decodeRead h rfl, fun ⟨lo, hi⟩ => decodeRead_oam lo hi⟩,
    ⟨fun h => window_of_decodeRead h rfl, fun ⟨lo, hi⟩ => decodeRead_unus lo hi⟩,
    ⟨fun h => (window_of_decodeRead h rfl).1, decodeRead_mmio⟩⟩

end Sys2Proof.Machine
end

section
/-! PROOFS. The address decoder (40_address_decoder.md R110, R116 to R125): the region ranges, the match/mask blocks of each
internal range, and the ten operations that answer from a storage region, store one of its cells, or reach none. -/

namespace Sys2Proof.Machine

/-! ### Regions (R110) -/

/-- Settles O5, range by range from the laws of `region`; the two end ranges also name the ends of the address space. -/
theorem regionByAddressRange : Obligations.RegionByAddressRange := by
  intro a
  have hlast : a.toNat ≤ 0xFFFF := Nat.le_of_lt_succ a.isLt
  exact ⟨region_rom0.trans (iff_and_self.2 fun _ => a.toNat.zero_le), region_romx, region_vram, region_cram, region_wram,
    region_echo, region_oam, region_unus, region_mmio.trans (iff_self_and.2 fun _ => hlast)⟩

/-! ### Match/mask blocks: a mask of `16 - k` high bits selects an aligned block of `2 ^ k` addresses (R93) -/

section
variable {a : Addr}

theorem vram_block : a &&& 0xE000#16 = 0x8000#16 ↔ 0x8000 ≤ a.toNat ∧ a.toNat ≤ 0x9FFF := by
  rw [addr_and_mask (k := 13) (by decide) rfl, BitVec.toNat_ofNat]
  omega

theorem wram_block : a &&& 0xE000#16 = 0xC000#16 ↔ 0xC000 ≤ a.toNat ∧ a.toNat ≤ 0xDFFF := by
  rw [addr_and_mask (k := 13) (by decide) rfl, BitVec.toNat_ofNat]
  omega

theorem echo_blocks :
    (a &&& 0xF000#16 = 0xE000#16 ∨ a &&& 0xF800#16 = 0xF000#16 ∨ a &&& 0xFC00#16 = 0xF800#16 ∨ a &&& 0xFE00#16 = 0xFC00#16) ↔
      0xE000 ≤ a.toNat ∧ a.toNat ≤ 0xFDFF := by
  rw [addr_and_mask (k := 12) (by decide) rfl, addr_and_mask (k := 11) (by decide) rfl,
    addr_and_mask (k := 10) (by decide) rfl, addr_and_mask (k := 9) (by decide) rfl]
  simp only [BitVec.toNat_ofNat]
  omega

theorem oam_blocks :
    (a &&& 0xFF80#16 = 0xFE00#16 ∨ a &&& 0xFFE0#16 = 0xFE80#16) ↔ 0xFE00 ≤ a.toNat ∧ a.toNat ≤ 0xFE9F := by
  rw [addr_and_mask (k := 7) (by decide) rfl, addr_and_mask (k := 5) (by decide) rfl]
  simp only [BitVec.toNat_ofNat]
  omega

theorem unus_blocks :
    (a &&& 0xFFE0#16 = 0xFEA0#16 ∨ a &&& 0xFFC0#16 = 0xFEC0#16) ↔ 0xFEA0 ≤ a.toNat ∧ a.toNat ≤ 0xFEFF := by
  rw [addr_and_mask (k := 5) (by decide) rfl, addr_and_mask (k := 6) (by decide) rfl]
  simp only [BitVec.toNat_ofNat]
  omega

end

/-! ### The cell an operation reaches -/

theorem Memory.read_write_self (m : Memory) (o : Nat) (v : Byte) : (m.write o v).read o = v := by
  rw [Memory.read_write, if_pos rfl]

theorem echoOffset_of_primary {a : Addr} (lo : 0xC000 ≤ a.toNat) (hi : a.toNat ≤ 0xDDFF) :
    echoOffset (a + 0x2000#16) = wramOffset a := by
  have hadd : (a + 0x2000#16).toNat = a.toNat + 0x2000 := BitVec.toNat_add_of_lt (show a.toNat + 0x2000 < 2 ^ 16 by omega)
  rw [echoOffset_eq, wramOffset_eq, hadd]
  omega

/-! ### VRAM (R116, R117) -/

/-- Settles O30: the answer is the cell at `vramOffset`, and `State.answer` touches no other field. -/
theorem rdVramReturnsTheVramByte : Obligations.RdVramReturnsTheVramByte := by
  refine fun s a d => ⟨vram_block, fun lo hi => ⟨decodeRead_vram lo hi, ?_⟩⟩
  rw [← vramOffset_eq]
  rfl

/-- Settles O31: one cell by `Memory.read_write`; a READ of the same address uses the same `vramOffset`. -/
theorem wrVramStoresOneByte : Obligations.WrVramStoresOneByte := by
  refine fun s a v => ⟨vram_block, fun lo hi => ⟨decodeWrite_vram v lo hi, _, rfl, rfl, fun o => ?_, _, rfl, ?_⟩⟩
  · rw [← vramOffset_eq]
    exact s.vram.read_write (vramOffset a) o v
  · exact congrArg some (s.vram.read_write_self (vramOffset a) v)

/-! ### WRAM (R118, R119) -/

/-- Settles O32: the answer is the cell at `wramOffset`, and `State.answer` touches no other field. -/
theorem rdWramReturnsTheWramByte : Obligations.RdWramReturnsTheWramByte := by
  refine fun s a d => ⟨wram_block, fun lo hi => ⟨decodeRead_wram lo hi, ?_⟩⟩
  rw [← wramOffset_eq]
  rfl

/-- Settles O33: one cell by `Memory.read_write`; up to 0xDDFF the echo address has the same offset. -/
theorem wrWramStoresOneByte : Obligations.WrWramStoresOneByte := by
  refine fun s a v => ⟨wram_block, fun lo hi => ⟨decodeWrite_wram v lo hi, _, rfl, rfl, fun o => ?_, fun hecho =>
    ⟨_, rfl, ?_⟩⟩⟩
  · rw [← wramOffset_eq]
    exact s.wram.read_write (wramOffset a) o v
  · simp [echoOffset_of_primary lo hecho, Memory.read_write_self]

/-! ### Echo (R120, R121) -/

/-- Settles O34: the answer is the cell at `echoOffset`, which is `wramOffset` of the address 0x2000 below. -/
theorem rdEchoReturnsTheAliasedByte : Obligations.RdEchoReturnsTheAliasedByte := by
  refine fun s a d => ⟨echo_blocks, fun lo hi => ⟨decodeRead_echo lo hi, ?_, _, rfl, ?_⟩⟩
  · rw [← echoOffset_eq]
    rfl
  · simp [← echoOffset_eq, wramOffset_primary_of_echo (region_echo.2 ⟨lo, hi⟩)]

/-- Settles O35: one cell by `Memory.read_write`, at the offset the address 0x2000 below has as a `WRAM` address. -/
theorem wrEchoStoresTheAliasedByte : Obligations.WrEchoStoresTheAliasedByte := by
  refine fun s a v => ⟨echo_blocks, fun lo hi => ⟨decodeWrite_echo v lo hi, _, rfl, rfl, fun o => ?_, _, rfl, ?_⟩⟩
  · rw [← echoOffset_eq]
    exact s.wram.read_write (echoOffset a) o v
  · simp [wramOffset_primary_of_echo (region_echo.2 ⟨lo, hi⟩), Memory.read_write_self]

/-! ### OAM (R122, R123) -/

/-- Settles O36: the answer is the cell at `oamOffset`, and `State.answer` touches no other field. -/
theorem rdOamReturnsTheOamByte : Obligations.RdOamReturnsTheOamByte := by
  refine fun s a d => ⟨oam_blocks, fun lo hi => ⟨decodeRead_oam lo hi, ?_⟩⟩
  rw [← oamOffset_eq]
  rfl

/-- Settles O37: one cell by `Memory.read_write`; a READ of the same address uses the same `oamOffset`. -/
theorem wrOamStoresOneByte : Obligations.WrOamStoresOneByte := by
  refine fun s a v => ⟨oam_blocks, fun lo hi => ⟨decodeWrite_oam v lo hi, _, rfl, rfl, fun o => ?_, _, rfl, ?_⟩⟩
  · rw [← oamOffset_eq]
    exact s.oam.read_write (oamOffset a) o v
  · exact congrArg some (s.oam.read_write_self (oamOffset a) v)

/-! ### The unused range (R124, R125) -/

/-- Settles O38: the meaning of RD.UNUS reads no storage region; it answers `fillByte` and emits the event. -/
theorem rdUnusReturnsFill : Obligations.RdUnusReturnsFill :=
  fun _ _ _ => ⟨unus_blocks, fun lo hi => ⟨decodeRead_unus lo hi, rfl⟩⟩

/-- Settles O39: the meaning of WR.UNUS stores nothing, it emits the event only; a READ after it answers `fillByte`. -/
theorem wrUnusIsDropped : Obligations.WrUnusIsDropped :=
  fun _ _ _ => ⟨unus_blocks, fun lo hi => ⟨decodeWrite_unus _ lo hi, _, rfl, rfl, _, rfl, rfl⟩⟩

end Sys2Proof.Machine
end

section
/-! PROOFS. The bank controller's translation and the operations that read or store through it (41_bank_controller.md R150
to R157, R163, R164): the wrap of bank indices, the match/mask blocks of the cartridge ranges, what the gate decides, and
who may change the three bank registers. -/

namespace Sys2Proof.Machine

/-! ### Bank offsets (R152, R153) -/

/-- A bank index reduced modulo a count is no larger than the index itself; a count of 0 reduces nothing. -/
theorem bank_offset_le {index count size offset : Nat} :
    index % count * size + offset ≤ index * size + offset :=
  Nat.add_le_add_right (Nat.mul_le_mul_right size (Nat.mod_le index count)) offset

/-- An index equal to the count selects bank 0. -/
theorem bank_offset_of_eq_count {index count size offset : Nat} (h : index = count) :
    index % count * size + offset = offset := by
  rw [h, Nat.mod_self, Nat.zero_mul, Nat.zero_add]

section
variable (s : State) {a : Addr}

theorem State.translateRam_eq (a : Addr) :
    s.translateRam a = (s.ramBank.toNat % s.cfg.ramBanks) * 0x2000 + (a.toNat - 0xA000) := by
  rw [State.translateRam, cramOffset_eq]

theorem State.translateRom_le (lo : 0x4000 ≤ a.toNat) (hi : a.toNat ≤ 0x7FFF) : s.translateRom a ≤ 0x7FFFFF := by
  have hbank := s.romBank.isLt
  rw [s.translateRom_high lo]
  refine bank_offset_le.trans ?_
  omega

theorem State.translateRam_le (hi : a.toNat ≤ 0xBFFF) : s.translateRam a ≤ 0x1FFFF := by
  have hbank := s.ramBank.isLt
  rw [s.translateRam_eq a]
  refine bank_offset_le.trans ?_
  omega

/-- Only the cartridge-RAM range resolves to a RAM cell, and only through an open gate. -/
theorem State.accessible_of_resolve_ramCell {i : Intent} {o : Nat} (h : s.resolve a i = .ramCell o) :
    s.accessible = true := by
  have hat := s.resolve_targetLiesAt i a
  rw [h] at hat
  obtain ⟨lo, hi, -⟩ := hat
  cases hacc : s.accessible with
  | true => rfl
  | false =>
    rw [State.resolve, region_cram.2 ⟨lo, hi⟩] at h
    simp [hacc] at h

end

/-- Settles O17: the bounds are those of a bank index, reduced by R153's `mod`, with an offset inside the bank; a RAM cell
needs the open gate, which is shut when there is no RAM bank. -/
theorem bankIndicesWrapModuloTheCount : Obligations.BankIndicesWrapModuloTheCount := by
  intro s a
  refine ⟨fun lo hi => ?_, fun lo hi hbanks => ?_, fun i o hnone hcell => ?_⟩
  · have heq := s.translateRom_high lo
    refine ⟨heq, s.translateRom_le lo hi, fun hbanks => ?_, fun hcount => ?_⟩
    · rw [heq]
      exact bank_offset_lt hbanks (by omega)
    · rw [heq, bank_offset_of_eq_count hcount]
  · have heq := s.translateRam_eq a
    refine ⟨heq, s.translateRam_le hi, ?_, fun hcount => ?_, fun _ => rfl⟩
    · rw [heq]
      exact bank_offset_lt hbanks (by omega)
    · rw [heq, bank_offset_of_eq_count hcount]
  · have hacc := s.accessible_of_resolve_ramCell hcell
    rw [s.not_accessible_iff.2 (.inr hnone)] at hacc
    exact nomatch hacc

/-! ### What the gate and the handler table decide -/

section
variable (s : State) (a : Addr) (v : Byte)

theorem exec_rdCram_accessible (h : s.accessible = true) :
    exec (.rdCram a) s = .next (s.start.answer (s.sram.read (s.translateRam a))) := by
  simp [exec, execRdCram, h]

theorem exec_rdCram_inaccessible (h : s.accessible = false) :
    exec (.rdCram a) s = .next (s.start.answer fillByte) := by
  simp [exec, execRdCram, h]

theorem exec_wrCram_accessible (h : s.accessible = true) :
    exec (.wrCram a v) s = .next (s.start.storeSram (s.translateRam a) v) := by
  simp [exec, execWrCram, h]

theorem exec_wrCram_inaccessible (h : s.accessible = false) : exec (.wrCram a v) s = .next s.start := by
  simp [exec, execWrCram, h]

theorem exec_rdMmio_handled {g : Handler} (h : s.handlerAt a = some g) :
    exec (.rdMmio a) s = .next (s.start.callRead g) := by
  simp [exec, execRdMmio, h]

theorem exec_rdMmio_unmapped (h : s.handlerAt a = none) :
    exec (.rdMmio a) s = .next ((s.start.answer fillByte).emit a .unmapped) := by
  simp [exec, execRdMmio, h]

theorem exec_wrMmio_handled {g : Handler} (h : s.handlerAt a = some g) :
    exec (.wrMmio a v) s = .next (s.start.callWrite g v) := by
  simp [exec, execWrMmio, h]

theorem exec_wrMmio_unmapped (h : s.handlerAt a = none) : exec (.wrMmio a v) s = .next (s.start.emit a .unmapped) := by
  simp [exec, execWrMmio, h]

end

/-! ### Who changes the bank registers (R150) -/

theorem exec_keeps_bank_registers {i : Instr} (s : State) (h : isBankControl i = false) :
    ∃ t, exec i s = .next t ∧ t.romBank = s.romBank ∧ t.ramBank = s.ramBank ∧ t.ramEnable = s.ramEnable := by
  cases i with
  | rdRom0 a | rdRomx a | rdVram a | rdCram a | rdWram a | rdEcho a | rdOam a | rdUnus a =>
    exact ⟨_, rfl, rfl, rfl, rfl⟩
  | wrVram a d | wrWram a d | wrEcho a d | wrOam a d | wrUnus a d => exact ⟨_, rfl, rfl, rfl, rfl⟩
  | rdMmio a =>
    cases hg : s.handlerAt a with
    | some g => exact ⟨_, exec_rdMmio_handled s a hg, rfl, rfl, rfl⟩
    | none => exact ⟨_, exec_rdMmio_unmapped s a hg, rfl, rfl, rfl⟩
  | wrCram a d =>
    cases hacc : s.accessible with
    | true => exact ⟨_, exec_wrCram_accessible s a d hacc, rfl, rfl, rfl⟩
    | false => exact ⟨_, exec_wrCram_inaccessible s a d hacc, rfl, rfl, rfl⟩
  | wrMmio a d =>
    cases hg : s.handlerAt a with
    | some g => exact ⟨_, exec_wrMmio_handled s a d hg, rfl, rfl, rfl⟩
    | none => exact ⟨_, exec_wrMmio_unmapped s a d hg, rfl, rfl, rfl⟩
  | wrRamg a d | wrRomb0 a d | wrRomb1 a d | wrRamb a d | wrRsv6 a d => exact nomatch h

/-- A bank-control operation is the sub-range of `on_bank_control_write` that its own address lies in (R154). -/
theorem exec_bankControl {i : Instr} (s : State) (h : isBankControl i = true) (hwf : i.wf = true) :
    exec i s = .next (s.start.onBankControlWrite i.addr i.data) := by
  cases i with
  | wrRamg a d =>
    have hi := (inWindow_iff.1 hwf).2
    exact congrArg Host.Outcome.next (s.start.onBankControlWrite_ramg d hi).symm
  | wrRomb0 a d =>
    obtain ⟨lo, hi⟩ := inWindow_iff.1 hwf
    exact congrArg Host.Outcome.next (s.start.onBankControlWrite_romb0 d lo hi).symm
  | wrRomb1 a d =>
    obtain ⟨lo, hi⟩ := inWindow_iff.1 hwf
    exact congrArg Host.Outcome.next (s.start.onBankControlWrite_romb1 d lo hi).symm
  | wrRamb a d =>
    obtain ⟨lo, hi⟩ := inWindow_iff.1 hwf
    exact congrArg Host.Outcome.next (s.start.onBankControlWrite_ramb d lo hi).symm
  | wrRsv6 a d =>
    have lo := (inWindow_iff.1 hwf).1
    exact congrArg Host.Outcome.next (s.start.onBankControlWrite_rsv6 d lo).symm
  | rdRom0 a | rdRomx a | rdVram a | rdCram a | rdWram a | rdEcho a | rdOam a | rdUnus a | rdMmio a => exact nomatch h
  | wrVram a d | wrCram a d | wrWram a d | wrEcho a d | wrOam a d | wrUnus a d | wrMmio a d => exact nomatch h

section
variable {s t : State} (a : Addr)

theorem State.translateRom_congr (hcfg : t.cfg = s.cfg) (hbank : t.romBank = s.romBank) :
    t.translateRom a = s.translateRom a := by
  rw [State.translateRom, State.translateRom, hcfg, hbank]

theorem State.translateRam_congr (hcfg : t.cfg = s.cfg) (hbank : t.ramBank = s.ramBank) :
    t.translateRam a = s.translateRam a := by
  rw [State.translateRam, State.translateRam, hcfg, hbank]

end

/-- Settles O23: `exec_keeps_bank_registers` for the other operations, `exec_bankControl` for the five, and the fields the
two translations read. -/
theorem onlyBankControlWritesChangeBankState : Obligations.OnlyBankControlWritesChangeBankState :=
  ⟨fun _ s h => exec_keeps_bank_registers s h, fun _ s h hwf => exec_bankControl s h hwf,
    fun _ _ a hcfg hrom hram => ⟨State.translateRom_congr a hcfg hrom, State.translateRam_congr a hcfg hram⟩⟩

/-! ### Match/mask blocks of the cartridge ranges -/

section
variable {a : Addr}

theorem rom0_block : a &&& 0xC000#16 = 0x0000#16 ↔ a.toNat ≤ 0x3FFF := by
  rw [addr_and_mask (k := 14) (by decide) rfl, BitVec.toNat_ofNat]
  omega

theorem romx_block : a &&& 0xC000#16 = 0x4000#16 ↔ 0x4000 ≤ a.toNat ∧ a.toNat ≤ 0x7FFF := by
  rw [addr_and_mask (k := 14) (by decide) rfl, BitVec.toNat_ofNat]
  omega

theorem cram_block : a &&& 0xE000#16 = 0xA000#16 ↔ 0xA000 ≤ a.toNat ∧ a.toNat ≤ 0xBFFF := by
  rw [addr_and_mask (k := 13) (by decide) rfl, BitVec.toNat_ofNat]
  omega

end

/-! ### ROM (R156, R157) -/

/-- Settles O15: the meaning of RD.ROM0 reads `ROM` at the address itself, and `State.answer` touches no other field. -/
theorem rdRom0ReturnsTheFixedBankByte : Obligations.RdRom0ReturnsTheFixedBankByte :=
  fun _ _ _ => ⟨rom0_block, fun hi => ⟨decodeRead_rom0 hi, rfl⟩⟩

/-- Settles O16: the answer is the cell at `romxOffset` in the bank `rom_bank mod ROM_BANKS`. -/
theorem rdRomxReturnsTheSelectedBankByte : Obligations.RdRomxReturnsTheSelectedBankByte := by
  refine fun s a d => ⟨romx_block, fun lo hi => ⟨decodeRead_romx lo hi, ?_⟩⟩
  rw [← romxOffset_eq]
  rfl

/-! ### Cartridge RAM (R163, R164) -/

/-- Settles O25: through the open gate the answer is the cell at `translate_ram`, through the shut one `fillByte`. -/
theorem rdCramReturnsTheBankByteOrFill : Obligations.RdCramReturnsTheBankByteOrFill := by
  refine fun s a d => ⟨cram_block, fun lo hi => ⟨decodeRead_cram lo hi, fun hon hbanks => ?_, fun hshut => ?_⟩⟩
  · rw [exec_rdCram_accessible s a (s.accessible_iff.2 ⟨hon, hbanks⟩), s.translateRam_eq]
    rfl
  · rw [exec_rdCram_inaccessible s a (s.not_accessible_iff.2 hshut)]
    rfl

/-- Settles O26: through the open gate one cell, at `translate_ram`, by `Memory.read_write`; through the shut one the
transaction only starts. -/
theorem wrCramStoresOnlyWhileAccessible : Obligations.WrCramStoresOnlyWhileAccessible := by
  refine fun s a v => ⟨cram_block, fun lo hi => ⟨decodeWrite_cram v lo hi, fun hon hbanks => ?_, fun hshut => ?_⟩⟩
  · refine ⟨_, exec_wrCram_accessible s a v (s.accessible_iff.2 ⟨hon, hbanks⟩), rfl, fun o => ?_⟩
    rw [← s.translateRam_eq]
    exact s.sram.read_write (s.translateRam a) o v
  · exact ⟨_, exec_wrCram_inaccessible s a v (s.not_accessible_iff.2 hshut), rfl⟩

end Sys2Proof.Machine
end

section
/-! PROOFS. The MMIO register table (42_mmio_table.md R196, R199): the match/mask block of its range, which operations reach
it, and what a transaction adds to the dispatch trace. -/

namespace Sys2Proof.Machine

/-! ### The MMIO range -/

theorem mmio_block {a : Addr} : a &&& 0xFF00#16 = 0xFF00#16 ↔ 0xFF00 ≤ a.toNat := by
  have ha := a.isLt
  rw [addr_and_mask (k := 8) (by decide) rfl, BitVec.toNat_ofNat]
  omega

/-- The windows of the other nineteen operations end below 0xFF00. -/
theorem mmio_operation_of_wf {i : Instr} (hwf : i.wf = true) (h : 0xFF00 ≤ i.addr.toNat) :
    (∃ a, i = .rdMmio a) ∨ ∃ a d, i = .wrMmio a d := by
  cases i with
  | rdMmio a => exact .inl ⟨a, rfl⟩
  | wrMmio a d => exact .inr ⟨a, d, rfl⟩
  | rdRom0 a | rdRomx a | rdVram a | rdCram a | rdWram a | rdEcho a | rdOam a | rdUnus a =>
    have hi : a.toNat ≤ 0xFEFF := (inWindow_iff.1 hwf).2.trans (by decide)
    exact absurd h (Nat.not_le_of_lt (Nat.lt_succ_of_le hi))
  | wrRamg a d | wrRomb0 a d | wrRomb1 a d | wrRamb a d | wrRsv6 a d | wrVram a d | wrCram a d | wrWram a d | wrEcho a d
  | wrOam a d | wrUnus a d =>
    have hi : a.toNat ≤ 0xFEFF := (inWindow_iff.1 hwf).2.trans (by decide)
    exact absurd h (Nat.not_le_of_lt (Nat.lt_succ_of_le hi))

/-! ### The dispatch trace (R199) -/

@[simp] theorem State.onBankControlWrite_dispatches (s : State) (a : Addr) (v : Byte) :
    (s.onBankControlWrite a v).dispatches = s.dispatches := by
  rw [State.onBankControlWrite_frame]

theorem exec_keeps_dispatches {i : Instr} (s : State) (hwf : i.wf = true)
    (h : i.addr.toNat < 0xFF00 ∨ s.handlerAt i.addr = none) :
    ∃ t, exec i s = .next t ∧ t.dispatches = s.dispatches := by
  cases i with
  | rdRom0 a | rdRomx a | rdVram a | rdCram a | rdWram a | rdEcho a | rdOam a | rdUnus a => exact ⟨_, rfl, rfl⟩
  | wrVram a d | wrWram a d | wrEcho a d | wrOam a d | wrUnus a d => exact ⟨_, rfl, rfl⟩
  | wrRamg a d | wrRomb0 a d | wrRomb1 a d | wrRamb a d | wrRsv6 a d =>
    exact ⟨_, exec_bankControl s rfl hwf, s.start.onBankControlWrite_dispatches a d⟩
  | wrCram a d =>
    cases hacc : s.accessible with
    | true => exact ⟨_, exec_wrCram_accessible s a d hacc, rfl⟩
    | false => exact ⟨_, exec_wrCram_inaccessible s a d hacc, rfl⟩
  | rdMmio a =>
    have hnone := h.resolve_left (Nat.not_lt_of_le (inWindow_iff.1 hwf).1)
    exact ⟨_, exec_rdMmio_unmapped s a hnone, rfl⟩
  | wrMmio a d =>
    have hnone := h.resolve_left (Nat.not_lt_of_le (inWindow_iff.1 hwf).1)
    exact ⟨_, exec_wrMmio_unmapped s a d hnone, rfl⟩

/-- Settles O14: at a handled address the operation is one of the two MMIO operations, and each calls the one handler listed
there; in every other transaction nothing is called, by `exec_keeps_dispatches`. -/
theorem oneDispatchPerHandledTransaction : Obligations.OneDispatchPerHandledTransaction := by
  intro i s hwf
  by_cases h : i.addr.toNat < 0xFF00 ∨ s.handlerAt i.addr = none
  · obtain ⟨t, ht, hkeep⟩ := exec_keeps_dispatches s hwf h
    have hunhandled : ∀ g, 0xFF00 ≤ i.addr.toNat → s.handlerAt i.addr ≠ some g := fun g hhigh hg =>
      h.elim (Nat.not_lt_of_le hhigh) (fun hnone => nomatch hnone.symm.trans hg)
    exact ⟨t, ht, fun g hhigh hg => absurd hg (hunhandled g hhigh), fun g hhigh hg => absurd hg (hunhandled g hhigh),
      fun _ => hkeep⟩
  · obtain ⟨hhigh, hsome⟩ := not_or.1 h
    obtain ⟨g, hg⟩ := Option.ne_none_iff_exists'.1 hsome
    have honly : ∀ g', s.handlerAt i.addr = some g' → g = g' := fun _ hg' => Option.some.inj (hg.symm.trans hg')
    obtain ⟨a, rfl⟩ | ⟨a, d, rfl⟩ := mmio_operation_of_wf hwf (Nat.le_of_not_lt hhigh)
    · refine ⟨_, exec_rdMmio_handled s a hg, fun g' _ hg' _ => ?_, nofun, fun hno => absurd hno h⟩
      rw [← honly g' hg']
      rfl
    · refine ⟨_, exec_wrMmio_handled s a d hg, nofun, fun g' _ hg' _ => ?_, fun hno => absurd hno h⟩
      rw [← honly g' hg']
      rfl

/-! ### WR.MMIO (R196) -/

/-- Settles O44: with a handler its write effect is called; with none the event is emitted, which leaves the handler table
as it is, so a READ after it finds no handler either. -/
theorem wrMmioCallsTheHandlerOrDrops : Obligations.WrMmioCallsTheHandlerOrDrops := by
  refine fun s a v => ⟨mmio_block, fun lo => ⟨decodeWrite_mmio v lo, fun g hg => ?_, fun hnone => ?_⟩⟩
  · exact ⟨_, exec_wrMmio_handled s a v hg, rfl⟩
  · have hstill : (s.start.emit a .unmapped).handlerAt a = none := hnone
    exact ⟨_, exec_wrMmio_unmapped s a v hnone, rfl, _, exec_rdMmio_unmapped _ a hstill, rfl⟩

end Sys2Proof.Machine
end

section
/-! PROOFS. The facade (43_facade.md R210 to R212): every transaction completes, `read(addr)` is the READ operation its
address selects, and `write(addr, v)` the WRITE operation, both by the region of the address. -/

namespace Sys2Proof.Machine

/-! ### No fault and no refusal (R212) -/

/-- Only the two MMIO operations branch before they answer, on the handler table; both branches answer. -/
theorem exec_completes (i : Instr) (s : State) : ∃ t, exec i s = .next t := by
  cases i with
  | rdMmio a =>
    cases hg : s.handlerAt a with
    | some g => exact ⟨_, exec_rdMmio_handled s a hg⟩
    | none => exact ⟨_, exec_rdMmio_unmapped s a hg⟩
  | wrMmio a d =>
    cases hg : s.handlerAt a with
    | some g => exact ⟨_, exec_wrMmio_handled s a d hg⟩
    | none => exact ⟨_, exec_wrMmio_unmapped s a d hg⟩
  | rdRom0 a | rdRomx a | rdVram a | rdCram a | rdWram a | rdEcho a | rdOam a | rdUnus a => exact ⟨_, rfl⟩
  | wrRamg a d | wrRomb0 a d | wrRomb1 a d | wrRamb a d | wrRsv6 a d => exact ⟨_, rfl⟩
  | wrVram a d | wrCram a d | wrWram a d | wrEcho a d | wrOam a d | wrUnus a d => exact ⟨_, rfl⟩

theorem step_of_pending_nil {s : State} (h : s.pending = []) : step s = .next s := by
  simp only [step, State.fetch, h]

theorem step_of_pending_cons {s : State} {w : BusWord} {rest : List BusWord} (h : s.pending = w :: rest) :
    step s = exec (decodeWord w) { s with pending := rest } := by
  simp only [step, State.fetch, h]

/-- Settles O10: every instruction by `exec_completes`; a step is one instruction, or nothing when none was issued. -/
theorem everyTransactionCompletes : Obligations.EveryTransactionCompletes := by
  refine ⟨exec_completes, fun s => ?_⟩
  cases hp : s.pending with
  | nil => exact ⟨s, step_of_pending_nil hp⟩
  | cons w rest =>
    rw [step_of_pending_cons hp]
    exact exec_completes _ _

/-! ### `read(addr)` (R210) -/

/-- The decoder of operations, `resolve` and `diag_kind` branch on the same regions; in each the READ operation answers from
the target `resolve` names and emits the event `diag_kind` gives. -/
theorem exec_decodeRead (s : State) (a : Addr) : exec (decodeRead a) s = .next (s.facadeRead a) := by
  unfold decodeRead State.facadeRead State.resolve State.diagKind
  cases hr : region a with
  | rom0 =>
    rw [s.translateRom_low (region_rom0.1 hr)]
    rfl
  | romx =>
    rw [s.translateRom_high (region_romx.1 hr).1, ← romxOffset_eq]
    rfl
  | cram =>
    cases hacc : s.accessible with
    | true => exact exec_rdCram_accessible s a hacc
    | false => exact exec_rdCram_inaccessible s a hacc
  | mmio =>
    cases hg : s.handlerAt a with
    | some g => exact exec_rdMmio_handled s a hg
    | none => exact exec_rdMmio_unmapped s a hg
  | vram | wram | echo | oam | unus => rfl

theorem State.facadeRead_rdata (s : State) (a : Addr) : ∃ b, (s.facadeRead a).rdata = some b := by
  rw [State.facadeRead, State.emitIfFlagged_rdata]
  cases s.resolve a .read <;> exact ⟨_, rfl⟩

/-- Settles O45: `exec_decodeRead`, the byte every target answers, and the frame of a READ operation from
`aWriteChangesAtMostOneThing`. -/
theorem readTransactionIsTheNineReads : Obligations.ReadTransactionIsTheNineReads := by
  intro s a d
  have hexec := exec_decodeRead s a
  refine ⟨hexec, s.facadeRead_rdata a, ?_⟩
  obtain ⟨t, ht, hframe, -⟩ := aWriteChangesAtMostOneThing (decodeRead a) s (decodeRead_wf a)
  obtain rfl : t = s.facadeRead a := Host.Outcome.next.inj (ht.symm.trans hexec)
  exact hframe (decodeRead_intent a)

/-! ### `write(addr, v)` (R211) -/

section
variable (s : State) {a : Addr} (v : Byte)

theorem isBankControl_decodeWrite (h : a.toNat ≤ 0x7FFF) : isBankControl (decodeWrite a v) = true := by
  rcases Nat.lt_or_ge a.toNat 0x4000 with hlow | hhigh
  · simp only [decodeWrite, region_rom0.2 (Nat.le_of_lt_succ hlow)]
    repeat' split
    all_goals rfl
  · simp only [decodeWrite, region_romx.2 ⟨hhigh, h⟩]
    split <;> rfl

theorem exec_decodeWrite_rom (h : a.toNat ≤ 0x7FFF) :
    exec (decodeWrite a v) s = .next (s.start.onBankControlWrite a v) := by
  simpa using exec_bankControl s (isBankControl_decodeWrite v h) (decodeWrite_wf a v)

/-- Below 0x8000 the WRITE operation is `on_bank_control_write`; in each other region it stores to the target `resolve`
names and emits the event `diag_kind` gives. -/
theorem exec_decodeWrite : exec (decodeWrite a v) s = .next (s.facadeWrite a v) := by
  unfold State.facadeWrite State.resolve State.diagKind
  cases hr : region a with
  | rom0 => exact exec_decodeWrite_rom s v ((region_rom0.1 hr).trans (by decide))
  | romx => exact exec_decodeWrite_rom s v (region_romx.1 hr).2
  | cram =>
    rw [decodeWrite, hr]
    cases hacc : s.accessible with
    | true => exact exec_wrCram_accessible s a v hacc
    | false => exact exec_wrCram_inaccessible s a v hacc
  | mmio =>
    rw [decodeWrite, hr]
    cases hg : s.handlerAt a with
    | some g => exact exec_wrMmio_handled s a v hg
    | none => exact exec_wrMmio_unmapped s a v hg
  | vram | wram | echo | oam | unus =>
    rw [decodeWrite, hr]
    rfl

end

/-- Settles O46: `exec_decodeWrite` at every state, address and byte. -/
theorem writeTransactionIsTheTwelveWrites : Obligations.WriteTransactionIsTheTwelveWrites :=
  fun s _ v => exec_decodeWrite s v

end Sys2Proof.Machine
end

section
/-! PROOFS. The transaction word (30_encoding.md R80 to R93): a well-formed instruction is the one its own fields select, so
decoding inverts encoding; a decoded word is re-encoded from its fields; and the opcode table's rows, which tile the word
space, select the decoded operation. -/

namespace Sys2Proof

/-! ### Decoding an instruction's own fields -/

theorem decodeWord_eq (w : BusWord) : decodeWord w = decodeAccess (intentField w) (addrField w) (dataField w) := rfl

/-- The window of a well-formed instruction is the range in which the decoder selects its operation (R83, R86). -/
theorem decodeAccess_of_wf {i : Instr} (h : i.wf = true) : decodeAccess i.intent i.addr i.data = i := by
  cases i with
  | rdRom0 a => exact decodeRead_rom0 (inWindow_iff.1 h).2
  | rdRomx a => exact (inWindow_iff.1 h).elim decodeRead_romx
  | rdVram a => exact (inWindow_iff.1 h).elim decodeRead_vram
  | rdCram a => exact (inWindow_iff.1 h).elim decodeRead_cram
  | rdWram a => exact (inWindow_iff.1 h).elim decodeRead_wram
  | rdEcho a => exact (inWindow_iff.1 h).elim decodeRead_echo
  | rdOam a => exact (inWindow_iff.1 h).elim decodeRead_oam
  | rdUnus a => exact (inWindow_iff.1 h).elim decodeRead_unus
  | rdMmio a => exact decodeRead_mmio (inWindow_iff.1 h).1
  | wrRamg a d => exact decodeWrite_ramg d (inWindow_iff.1 h).2
  | wrRomb0 a d => exact (inWindow_iff.1 h).elim (decodeWrite_romb0 d)
  | wrRomb1 a d => exact (inWindow_iff.1 h).elim (decodeWrite_romb1 d)
  | wrRamb a d => exact (inWindow_iff.1 h).elim (decodeWrite_ramb d)
  | wrRsv6 a d => exact (inWindow_iff.1 h).elim (decodeWrite_rsv6 d)
  | wrVram a d => exact (inWindow_iff.1 h).elim (decodeWrite_vram d)
  | wrCram a d => exact (inWindow_iff.1 h).elim (decodeWrite_cram d)
  | wrWram a d => exact (inWindow_iff.1 h).elim (decodeWrite_wram d)
  | wrEcho a d => exact (inWindow_iff.1 h).elim (decodeWrite_echo d)
  | wrOam a d => exact (inWindow_iff.1 h).elim (decodeWrite_oam d)
  | wrUnus a d => exact (inWindow_iff.1 h).elim (decodeWrite_unus d)
  | wrMmio a d => exact decodeWrite_mmio d (inWindow_iff.1 h).1

/-- Settles O2: the three fields of the encoded word are the instruction's operands, and those select the instruction. -/
theorem decodeEncodeRoundTrip : Obligations.DecodeEncodeRoundTrip := by
  intro i hwf
  rw [decodeWord_eq, encode, intentField_packWord, addrField_packWord, dataField_packWord]
  exact decodeAccess_of_wf hwf

/-- Settles O1: 21 closed words, each decoded by evaluation. -/
theorem sampleWordsDecode : Obligations.SampleWordsDecode := by
  unfold Obligations.SampleWordsDecode
  decide

/-! ### Encoding a decoded word -/

theorem toNat_eq_fields (w : BusWord) :
    w.toNat = (intentField w).code * 0x1000000 + (addrField w).toNat * 0x100 + (dataField w).toNat := by
  rw [← packWord_toNat, packWord_fields]

theorem encode_decodeWord_of_read {w : BusWord} (h : intentField w = .read) :
    encode (decodeWord w) = packWord .read (addrField w) 0x00 := by
  simp [decodeWord_eq, h, decodeAccess, encode]

theorem encode_decodeWord_of_write {w : BusWord} (h : intentField w = .write) : encode (decodeWord w) = w := by
  conv_rhs => rw [← packWord_fields w, h]
  simp [decodeWord_eq, h, decodeAccess, encode]

/-- Settles O3: bit 24 decides between a WRITE, re-encoded as it was, and a READ, re-encoded with data 0x00. -/
theorem everyWordDecodesAndEncodesBack : Obligations.EveryWordDecodesAndEncodesBack := by
  refine ⟨fun w => ⟨Machine.decodeWord_wf w, toNat_eq_fields w, fun hw => ?_, fun hr => ?_⟩, fun n => ⟨?_, fun hn => ?_⟩⟩
  · exact encode_decodeWord_of_write ((intentField_eq w).trans (if_pos hw))
  · have hread : intentField w = .read := (intentField_eq w).trans (if_neg (by omega))
    have hfields := toNat_eq_fields w
    have hdata := (dataField w).isLt
    rw [hread, Intent.code] at hfields
    rw [encode_decodeWord_of_read hread, packWord_toNat, Intent.code, show (0x00 : Byte).toNat = 0 from rfl]
    omega
  · exact fun hn => if_pos hn
  · exact if_neg (by omega)

/-! ### The WRITE operation map (R86) -/

theorem window_of_decodeWrite {a : Addr} {d : Byte} {i : Instr} {lo hi : Nat} (h : decodeWrite a d = i)
    (hw : i.wf = inWindow lo hi a) : lo ≤ a.toNat ∧ a.toNat ≤ hi := by
  have hwf := decodeWrite_wf a d
  rw [h, hw] at hwf
  exact inWindow_iff.1 hwf

/-- Settles O7: per range, `window_of_decodeWrite` one way and the decoder's equation the other. -/
theorem writeOperationMap : Obligations.WriteOperationMap := by
  intro a d
  rw [show decodeAccess .write a d = decodeWrite a d from rfl]
  exact ⟨⟨fun h => (window_of_decodeWrite h rfl).2, decodeWrite_ramg d⟩,
    ⟨fun h => window_of_decodeWrite h rfl, fun ⟨lo, hi⟩ => decodeWrite_romb0 d lo hi⟩,
    ⟨fun h => window_of_decodeWrite h rfl, fun ⟨lo, hi⟩ => decodeWrite_romb1 d lo hi⟩,
    ⟨fun h => window_of_decodeWrite h rfl, fun ⟨lo, hi⟩ => decodeWrite_ramb d lo hi⟩,
    ⟨fun h => window_of_decodeWrite h rfl, fun ⟨lo, hi⟩ => decodeWrite_rsv6 d lo hi⟩,
    ⟨fun h => window_of_decodeWrite h rfl, fun ⟨lo, hi⟩ => decodeWrite_vram d lo hi⟩,
    ⟨fun h => window_of_decodeWrite h rfl, fun ⟨lo, hi⟩ => decodeWrite_cram d lo hi⟩,
    ⟨fun h => window_of_decodeWrite h rfl, fun ⟨lo, hi⟩ => decodeWrite_wram d lo hi⟩,
    ⟨fun h => window_of_decodeWrite h rfl, fun ⟨lo, hi⟩ => decodeWrite_echo d lo hi⟩,
    ⟨fun h => window_of_decodeWrite h rfl, fun ⟨lo, hi⟩ => decodeWrite_oam d lo hi⟩,
    ⟨fun h => window_of_decodeWrite h rfl, fun ⟨lo, hi⟩ => decodeWrite_unus d lo hi⟩,
    ⟨fun h => (window_of_decodeWrite h rfl).1, decodeWrite_mmio d⟩⟩

end Sys2Proof
end

section
/-! PROOFS. The opcode table (30_encoding.md R91, R93): its 31 rows are aligned blocks of words that tile the word space in
order, so each word is selected by one row, and both ends of a row's block decode to one operation, so all of it does. -/

namespace Sys2Proof

/-! ### The operation of an instruction, at other operands -/

/-- The same operation with the given operands; a READ takes the address only. -/
def Instr.atOperands (a : Addr) (d : Byte) : Instr → Instr
  | .rdRom0 _ => .rdRom0 a
  | .rdRomx _ => .rdRomx a
  | .rdVram _ => .rdVram a
  | .rdCram _ => .rdCram a
  | .rdWram _ => .rdWram a
  | .rdEcho _ => .rdEcho a
  | .rdOam _ => .rdOam a
  | .rdUnus _ => .rdUnus a
  | .rdMmio _ => .rdMmio a
  | .wrRamg _ _ => .wrRamg a d
  | .wrRomb0 _ _ => .wrRomb0 a d
  | .wrRomb1 _ _ => .wrRomb1 a d
  | .wrRamb _ _ => .wrRamb a d
  | .wrRsv6 _ _ => .wrRsv6 a d
  | .wrVram _ _ => .wrVram a d
  | .wrCram _ _ => .wrCram a d
  | .wrWram _ _ => .wrWram a d
  | .wrEcho _ _ => .wrEcho a d
  | .wrOam _ _ => .wrOam a d
  | .wrUnus _ _ => .wrUnus a d
  | .wrMmio _ _ => .wrMmio a d

section
variable (i : Instr) {a b c : Addr} {d e f : Byte}

@[simp] theorem Instr.atOperands_mnemonic : (i.atOperands a d).mnemonic = i.mnemonic := by cases i <;> rfl

@[simp] theorem Instr.atOperands_intent : (i.atOperands a d).intent = i.intent := by cases i <;> rfl

@[simp] theorem Instr.atOperands_addr : (i.atOperands a d).addr = a := by cases i <;> rfl

theorem Instr.atOperands_self : i.atOperands i.addr i.data = i := by cases i <;> rfl

theorem decodeAccess_atOperands_data : decodeAccess i.intent a (i.atOperands a d).data = decodeAccess i.intent a d := by
  cases i <;> rfl

theorem inWindow_between {lo hi : Nat} (ha : inWindow lo hi a = true) (hc : inWindow lo hi c = true)
    (hab : a.toNat ≤ b.toNat) (hbc : b.toNat ≤ c.toNat) : inWindow lo hi b = true :=
  inWindow_iff.2 ⟨(inWindow_iff.1 ha).1.trans hab, hbc.trans (inWindow_iff.1 hc).2⟩

/-- The addresses at which an operation is well formed have no gap. -/
theorem Instr.wf_between (ha : (i.atOperands a d).wf = true) (hc : (i.atOperands c f).wf = true)
    (hab : a.toNat ≤ b.toNat) (hbc : b.toNat ≤ c.toNat) : (i.atOperands b e).wf = true := by
  cases i <;> exact inWindow_between ha hc hab hbc

end

theorem decodeWord_of_wf_atOperands {i : Instr} {w : BusWord} (hintent : intentField w = i.intent)
    (hwf : (i.atOperands (addrField w) (dataField w)).wf = true) :
    decodeWord w = i.atOperands (addrField w) (dataField w) := by
  have h := decodeAccess_of_wf hwf
  rwa [Instr.atOperands_intent, Instr.atOperands_addr, decodeAccess_atOperands_data, ← hintent] at h

/-! ### The block of a row -/

/-- The last word a row selects: its pattern, with every bit outside the mask set. -/
def OpcodeRow.last (r : OpcodeRow) : BusWord := r.pattern ||| ~~~r.mask

/-- The mask is a run of high bits and the pattern is aligned to it: the row's words are a block of a power of two. -/
def OpcodeRow.isBlock (r : OpcodeRow) : Prop :=
  ∃ k < 26, r.mask.toNat = (2 ^ (25 - k) - 1) <<< k ∧ r.pattern.toNat % 2 ^ k = 0 ∧
    r.last.toNat + 1 = r.pattern.toNat + 2 ^ k

/-- The two ends of the row's block are words of one intent and decode to the row's operation. -/
def OpcodeRow.endsAgree (r : OpcodeRow) : Prop :=
  (decodeWord r.pattern).mnemonic = r.mnemonic ∧ intentField r.last = intentField r.pattern ∧
    decodeWord r.last = (decodeWord r.pattern).atOperands (addrField r.last) (dataField r.last)

theorem opcodeRows_are_blocks : ∀ r ∈ opcodeRows, r.isBlock := by
  unfold OpcodeRow.isBlock
  decide

theorem opcodeRows_ends_agree : ∀ r ∈ opcodeRows, r.endsAgree := by
  unfold OpcodeRow.endsAgree
  decide

theorem OpcodeRow.selects_iff {r : OpcodeRow} (hr : r.isBlock) (w : BusWord) :
    r.selects w = true ↔ r.pattern.toNat ≤ w.toNat ∧ w.toNat ≤ r.last.toNat := by
  obtain ⟨k, hk, hmask, halign, hlast⟩ := hr
  have hpos : 0 < 2 ^ k := Nat.two_pow_pos k
  have hdiv := Nat.div_add_mod w.toNat (2 ^ k)
  have hmod := Nat.mod_lt w.toNat hpos
  obtain ⟨q, hq⟩ := Nat.dvd_of_mod_eq_zero halign
  rw [OpcodeRow.selects, beq_iff_eq, word_and_mask (by omega) hmask, Nat.mul_comm]
  constructor
  · omega
  · rintro ⟨lo, hi⟩
    have hdivq : w.toNat / 2 ^ k = q := Nat.div_eq_of_lt_le (by rw [Nat.mul_comm]; omega) (by
      rw [Nat.succ_mul, Nat.mul_comm]
      omega)
    rw [hdivq, hq]

theorem intentField_between {u v w : BusWord} (huv : intentField v = intentField u) (lo : u.toNat ≤ w.toNat)
    (hi : w.toNat ≤ v.toNat) : intentField w = intentField u := by
  rw [intentField_eq, intentField_eq] at huv
  rw [intentField_eq, intentField_eq]
  by_cases hu : 0x1000000 ≤ u.toNat
  · rw [if_pos hu, if_pos (hu.trans lo)]
  · have hv : ¬0x1000000 ≤ v.toNat := fun hv => by simp [hu, hv] at huv
    rw [if_neg hu, if_neg (by omega)]

/-- Among words of one intent a greater word has no smaller address. -/
theorem addrField_mono {u w : BusWord} (h : intentField w = intentField u) (hle : u.toNat ≤ w.toNat) :
    (addrField u).toNat ≤ (addrField w).toNat := by
  have hu := toNat_eq_fields u
  have hw := toNat_eq_fields w
  have hdata := (dataField w).isLt
  rw [h] at hw
  omega

theorem decodeWord_intent (w : BusWord) : (decodeWord w).intent = intentField w := by
  cases h : intentField w <;> simp [decodeWord_eq, h, decodeAccess]

theorem decodeWord_addr (w : BusWord) : (decodeWord w).addr = addrField w := by
  cases h : intentField w <;> simp [decodeWord_eq, h, decodeAccess]

/-- Every word of a row's block decodes to the row's operation, since both ends do. -/
theorem OpcodeRow.mnemonic_of_mem_block {r : OpcodeRow} (hr : r.endsAgree) {w : BusWord}
    (lo : r.pattern.toNat ≤ w.toNat) (hi : w.toNat ≤ r.last.toNat) : (decodeWord w).mnemonic = r.mnemonic := by
  obtain ⟨hmnemonic, hintent, hlast⟩ := hr
  have hw : intentField w = intentField r.pattern := intentField_between hintent lo hi
  have hfirst := (decodeWord r.pattern).atOperands_self
  rw [decodeWord_addr] at hfirst
  have hwf : ((decodeWord r.pattern).atOperands (addrField w) (dataField w)).wf = true :=
    (decodeWord r.pattern).wf_between (hfirst ▸ Machine.decodeWord_wf r.pattern) (hlast ▸ Machine.decodeWord_wf r.last)
      (addrField_mono hw lo) (addrField_mono (hintent.trans hw.symm) hi)
  rw [decodeWord_of_wf_atOperands (hw.trans (decodeWord_intent _).symm) hwf, Instr.atOperands_mnemonic, hmnemonic]

/-! ### The rows tile the word space -/

/-- The rows' blocks follow one another without gap or overlap, from `lo` up to just below `hi`. -/
def rowsTile : Nat → List OpcodeRow → Nat → Prop
  | lo, [], hi => lo = hi
  | lo, r :: rs, hi => r.pattern.toNat = lo ∧ lo ≤ r.last.toNat ∧ rowsTile (r.last.toNat + 1) rs hi

theorem opcodeRows_tile : rowsTile 0 opcodeRows (2 ^ 25) := by
  simp only [opcodeRows, readRows, writeRows, List.cons_append, List.nil_append, rowsTile]
  decide

section
variable {w : BusWord} {rows : List OpcodeRow} {lo hi : Nat}

theorem filter_selects_eq_nil (hblocks : ∀ r ∈ rows, r.isBlock) (htile : rowsTile lo rows hi) (hw : w.toNat < lo) :
    rows.filter (fun r => r.selects w) = [] := by
  induction rows generalizing lo with
  | nil => rfl
  | cons r rs ih =>
    obtain ⟨hfirst, hlast, hrest⟩ := htile
    obtain ⟨hr, hrs⟩ := List.forall_mem_cons.1 hblocks
    have hnot : ¬r.selects w = true := by
      rw [OpcodeRow.selects_iff hr]
      omega
    rw [List.filter_cons, if_neg hnot]
    exact ih hrs hrest (by omega)

/-- Of rows that tile a range, a word of the range is selected by exactly one, the one whose block holds it. -/
theorem filter_selects_eq_singleton (hblocks : ∀ r ∈ rows, r.isBlock) (htile : rowsTile lo rows hi) (hlo : lo ≤ w.toNat)
    (hhi : w.toNat < hi) :
    ∃ r ∈ rows, rows.filter (fun r => r.selects w) = [r] ∧ r.pattern.toNat ≤ w.toNat ∧ w.toNat ≤ r.last.toNat := by
  induction rows generalizing lo with
  | nil =>
    have heq : lo = hi := htile
    omega
  | cons r rs ih =>
    obtain ⟨hfirst, hlast, hrest⟩ := htile
    obtain ⟨hr, hrs⟩ := List.forall_mem_cons.1 hblocks
    have hiff := OpcodeRow.selects_iff hr w
    rcases Nat.lt_or_ge r.last.toNat w.toNat with hafter | hinside
    · obtain ⟨q, hq, honly, hblock⟩ := ih hrs hrest hafter
      have hnot : ¬r.selects w = true := by
        rw [hiff]
        omega
      refine ⟨q, List.mem_cons_of_mem r hq, ?_, hblock⟩
      rw [List.filter_cons, if_neg hnot, honly]
    · have hin : r.pattern.toNat ≤ w.toNat ∧ w.toNat ≤ r.last.toNat := ⟨by omega, hinside⟩
      refine ⟨r, List.mem_cons_self, ?_, hin⟩
      rw [List.filter_cons, if_pos (hiff.2 hin), filter_selects_eq_nil hrs hrest (Nat.lt_succ_of_le hinside)]

end

/-- Settles O4: the rows tile the words, so exactly one row's block holds the word, and all of a block decodes to the row's
operation. -/
theorem opcodeTableSelectsTheDecodedOperation : Obligations.OpcodeTableSelectsTheDecodedOperation := by
  intro w
  obtain ⟨r, hr, honly, lo, hi⟩ :=
    filter_selects_eq_singleton opcodeRows_are_blocks opcodeRows_tile (Nat.zero_le w.toNat) w.isLt
  rw [honly, List.map_singleton, OpcodeRow.mnemonic_of_mem_block (opcodeRows_ends_agree r hr) lo hi]

end Sys2Proof
end

section
/-! PROOFS. A step as a transaction of the facade (43_facade.md R210, R211, R219): a well-formed instruction, and so every
word, is `read(addr)` or `write(addr, v)` by its fields; and the queue gives its words to the steps in order. -/

namespace Sys2Proof.Machine

/-! ### The facade's transaction behind an instruction, a word and a step -/

section
variable {i : Instr} {w : BusWord} {s : State}

theorem exec_of_wf_read (hwf : i.wf = true) (h : i.intent = .read) : exec i s = .next (s.facadeRead i.addr) := by
  have hi : decodeRead i.addr = i := by simpa [h, decodeAccess] using decodeAccess_of_wf hwf
  simpa [hi] using exec_decodeRead s i.addr

theorem exec_of_wf_write (hwf : i.wf = true) (h : i.intent = .write) :
    exec i s = .next (s.facadeWrite i.addr i.data) := by
  have hi : decodeWrite i.addr i.data = i := by simpa [h, decodeAccess] using decodeAccess_of_wf hwf
  simpa [hi] using exec_decodeWrite s (a := i.addr) i.data

theorem exec_decodeWord_read (h : intentField w = .read) :
    exec (decodeWord w) s = .next (s.facadeRead (addrField w)) := by
  rw [decodeWord_eq, h]
  exact exec_decodeRead s _

theorem exec_decodeWord_write (h : intentField w = .write) :
    exec (decodeWord w) s = .next (s.facadeWrite (addrField w) (dataField w)) := by
  rw [decodeWord_eq, h]
  exact exec_decodeWrite s _

end

/-! ### What an event at the end of a transaction leaves alone -/

section
variable (k : Option DiagKind) (a : Addr) (s : State)

theorem State.emitIfFlagged_frame : s.emitIfFlagged k a = { s with diags := (s.emitIfFlagged k a).diags } := by
  cases k <;> rfl

theorem State.facadeRead_frame : s.facadeRead a = { s with
    phase := .run
    rdata := (s.facadeRead a).rdata
    dispatches := (s.facadeRead a).dispatches
    diags := (s.facadeRead a).diags
    draws := (s.facadeRead a).draws } :=
  (readTransactionIsTheNineReads s a 0).2.2

end

/-! ### The step's queue (R59, R219) -/

/-- Settles O8: the oldest word is the one taken; a word placed in front is then the oldest, and 25 bits pass
`withFetchWord`'s truncation. -/
theorem stepRunsTheDecodedTransaction : Obligations.StepRunsTheDecodedTransaction := by
  refine ⟨fun s w rest => step_of_pending_cons, fun s => step_of_pending_nil, fun s nbits w hbits hw => ?_⟩
  have hfits : w < 2 ^ nbits := hw.trans_le (Nat.pow_le_pow_right (by decide) hbits)
  rw [State.withFetchWord, Nat.mod_eq_of_lt hfits]
  exact step_of_pending_cons rfl

/-- Settles O9, by induction on the number of steps: a step with none issued changes nothing; else it answers the first
word, and the instruction leaves the queue behind it alone. -/
theorem transactionsAreAnsweredInOrder : Obligations.TransactionsAreAnsweredInOrder := by
  intro k
  induction k with
  | zero => exact fun s => ⟨s, rfl, rfl, rfl⟩
  | succ k ih =>
    intro s
    cases hp : s.pending with
    | nil =>
      obtain ⟨t, hrun, heach, hpending⟩ := ih s
      rw [hp, List.take_nil] at heach
      rw [hp, List.drop_nil] at hpending
      exact ⟨t, (runSteps_succ (step_of_pending_nil hp)).trans hrun, heach, hpending⟩
    | cons w rest =>
      obtain ⟨u, hexec⟩ := exec_completes (decodeWord w) { s with pending := rest }
      obtain ⟨-, -, -, -, hrest⟩ := exec_frame hexec
      obtain ⟨t, hrun, heach, hpending⟩ := ih u
      rw [hrest] at heach hpending
      refine ⟨t, (runSteps_succ ((step_of_pending_cons hp).trans hexec)).trans hrun, ?_, hpending⟩
      rw [List.take_succ_cons, answerEach_cons (t := u) (by rw [hp]; exact hexec)]
      exact heach

end Sys2Proof.Machine
end

section
/-! PROOFS. The invariant of a loaded machine (10_state.md sections 3 to 5, 7): LOAD and REGISTER make it hold, a READ
changes nothing it speaks of, a WRITE keeps it target by target, so every step does; and what no step changes. -/

namespace Sys2Proof.Machine

/-! ### A WRITE keeps storage inside its sizes and the fixed registers of `NONE` -/

theorem Memory.write_fits {m : Memory} {size o : Nat} (h : m.wf ∧ m.within size) (ho : o < size) (v : Byte) :
    (m.write o v).wf ∧ (m.write o v).within size :=
  ⟨Memory.write_wf h.1 o v, Memory.write_within h.2 ho v⟩

section
variable {s : State} (a : Addr) (v : Byte)

theorem State.translateRam_lt_sramSize {a : Addr} (hbanks : 0 < s.cfg.ramBanks) (hi : a.toNat ≤ 0xBFFF) :
    s.translateRam a < sramSizeOf s.cfg := by
  rw [s.translateRam_eq]
  exact bank_offset_lt hbanks (by omega)

theorem State.memoriesFit_emitIfFlagged (k : Option DiagKind) (h : s.memoriesFit) : (s.emitIfFlagged k a).memoriesFit := by
  rw [State.emitIfFlagged_frame]
  exact h

theorem State.storeSram_memoriesFit {o : Nat} (h : s.memoriesFit) (ho : o < sramSizeOf s.cfg) :
    (s.storeSram o v).memoriesFit := by
  obtain ⟨hrom, hsram, hvram, hwram, hoam⟩ := h
  exact ⟨hrom, Memory.write_fits hsram ho v, hvram, hwram, hoam⟩

theorem State.storeVram_memoriesFit {o : Nat} (h : s.memoriesFit) (ho : o < 0x2000) : (s.storeVram o v).memoriesFit := by
  obtain ⟨hrom, hsram, hvram, hwram, hoam⟩ := h
  exact ⟨hrom, hsram, Memory.write_fits hvram ho v, hwram, hoam⟩

theorem State.storeWram_memoriesFit {o : Nat} (h : s.memoriesFit) (ho : o < 0x8000) : (s.storeWram o v).memoriesFit := by
  obtain ⟨hrom, hsram, hvram, hwram, hoam⟩ := h
  exact ⟨hrom, hsram, hvram, Memory.write_fits hwram ho v, hoam⟩

theorem State.storeOam_memoriesFit {o : Nat} (h : s.memoriesFit) (ho : o < 0x100) : (s.storeOam o v).memoriesFit := by
  obtain ⟨hrom, hsram, hvram, hwram, hoam⟩ := h
  exact ⟨hrom, hsram, hvram, hwram, Memory.write_fits hoam ho v⟩

/-- A store goes to the cell the address resolves to, which lies inside its region. -/
theorem State.facadeWrite_memoriesFit (h : s.memoriesFit) : (s.facadeWrite a v).memoriesFit := by
  have hat := s.resolve_targetLiesAt .write a
  have hstart : s.start.memoriesFit := h
  refine State.memoriesFit_emitIfFlagged a _ ?_
  cases htarget : s.resolve a .write <;> rw [htarget] at hat
  case romCell o =>
    show (s.start.onBankControlWrite a v).memoriesFit
    rw [State.onBankControlWrite_frame]
    exact hstart
  case ramCell o =>
    obtain ⟨-, hi, ho⟩ := hat
    have hbanks := (s.accessible_iff.1 (s.accessible_of_resolve_ramCell htarget)).2
    exact State.storeSram_memoriesFit v hstart (ho ▸ State.translateRam_lt_sramSize hbanks hi)
  case vramCell o =>
    obtain ⟨lo, hi, ho⟩ := hat
    exact State.storeVram_memoriesFit v hstart (by omega)
  case wramCell o =>
    have ho : o < 0x8000 := by
      obtain ⟨-, hi, ho⟩ | ⟨-, hi, ho⟩ := hat <;> omega
    exact State.storeWram_memoriesFit v hstart ho
  case oamCell o =>
    obtain ⟨lo, hi, ho⟩ := hat
    exact State.storeOam_memoriesFit v hstart (by omega)
  case mmioHandler g => exact hstart
  case unmapped => exact hstart

end

/-- In variant `NONE` a bank-control operation only starts and ends (R165). -/
theorem exec_bankControl_none {i : Instr} {s : State} (h : isBankControl i = true) (hnone : s.cfg.variant = .none) :
    exec i s = .next s.start := by
  cases i with
  | wrRamg a d => exact congrArg Host.Outcome.next (s.start.writeRamGate_none d hnone)
  | wrRomb0 a d => exact congrArg Host.Outcome.next (s.start.writeRomBankLow_none d hnone)
  | wrRomb1 a d => exact congrArg Host.Outcome.next (s.start.writeRomBankHigh_none d hnone)
  | wrRamb a d => exact congrArg Host.Outcome.next (s.start.writeRamBank_none d hnone)
  | wrRsv6 a d => rfl
  | rdRom0 a | rdRomx a | rdVram a | rdCram a | rdWram a | rdEcho a | rdOam a | rdUnus a | rdMmio a => exact nomatch h
  | wrVram a d | wrCram a d | wrWram a d | wrEcho a d | wrOam a d | wrUnus a d | wrMmio a d => exact nomatch h

theorem exec_keeps_noneIsFixed {i : Instr} {s t : State} (h : exec i s = .next t) (hfixed : s.noneIsFixed) :
    t.noneIsFixed := by
  obtain ⟨hcfg, -⟩ := exec_frame h
  intro hnone
  rw [hcfg] at hnone
  cases hb : isBankControl i with
  | true =>
    obtain rfl := Host.Outcome.next.inj ((exec_bankControl_none hb hnone).symm.trans h)
    exact hfixed hnone
  | false =>
    obtain ⟨u, hu, hrom, hram, hgate⟩ := exec_keeps_bank_registers s hb
    obtain rfl := Host.Outcome.next.inj (hu.symm.trans h)
    rw [hrom, hram, hgate]
    exact hfixed hnone

/-! ### Every step keeps the invariant -/

theorem exec_decodeWord_keeps_memoriesFit {w : BusWord} {s t : State} (h : exec (decodeWord w) s = .next t)
    (hfit : s.memoriesFit) : t.memoriesFit := by
  cases hi : intentField w with
  | read =>
    obtain rfl := Host.Outcome.next.inj ((exec_decodeWord_read hi).symm.trans h)
    rw [State.facadeRead_frame]
    exact hfit
  | write =>
    obtain rfl := Host.Outcome.next.inj ((exec_decodeWord_write hi).symm.trans h)
    exact State.facadeWrite_memoriesFit _ _ hfit

theorem exec_decodeWord_keeps_inv {w : BusWord} {s t : State} (h : exec (decodeWord w) s = .next t) (hs : s.Inv) :
    t.Inv := by
  obtain ⟨hbank, hfit, htable, hfixed, -⟩ := hs
  have hfit' := exec_decodeWord_keeps_memoriesFit h hfit
  have hfixed' := exec_keeps_noneIsFixed h hfixed
  obtain ⟨hcfg, -, hht, hphase, -⟩ := exec_frame h
  refine ⟨?_, hfit', ?_, hfixed', fun hassembly => nomatch hphase.symm.trans hassembly⟩
  · rwa [State.hasRomBank, hcfg]
  · rwa [State.tableFits, hht]

/-- Settles O50: a step with none issued changes nothing; else the decoded instruction keeps the invariant, and taking its
word from the queue touches nothing the invariant speaks of. -/
theorem stepKeepsTheInvariant : Obligations.StepKeepsTheInvariant := by
  intro s t hs h
  obtain ⟨-, rfl⟩ | ⟨w, rest, -, hexec⟩ := step_cases h
  · exact hs
  · exact exec_decodeWord_keeps_inv hexec (s := { s with pending := rest }) hs

/-! ### LOAD and REGISTER make it hold -/

theorem State.atReset_ramEnable_iff (c : Cfg) (rom : Memory) (init : InitContents) :
    (State.atReset c rom init).ramEnable = true ↔ c.variant = .none := by
  cases h : c.variant <;> simp [State.atReset, h]

theorem State.atReset_inv {c : Cfg} {rom : Memory} {init : InitContents} (hbank : 1 ≤ c.romBanks) (hwf : rom.wf)
    (hwithin : rom.within (romSizeOf c)) (hfits : init.fits c) : (State.atReset c rom init).Inv := by
  have hgate := State.atReset_ramEnable_iff c rom init
  exact ⟨hbank, ⟨⟨hwf, hwithin⟩, hfits⟩, ⟨List.Pairwise.nil, nofun⟩, fun hnone => ⟨rfl, rfl, hgate.2 hnone⟩,
    fun _ => ⟨rfl, rfl, hgate, rfl, rfl, rfl, rfl⟩⟩

/-- Settles O49: `State.atReset_inv`, of which `State.reset` is the case of one fixed configuration. -/
theorem resetSatisfiesTheInvariant : Obligations.ResetSatisfiesTheInvariant :=
  ⟨State.atReset_inv (by decide) (by decide) (by decide) (by decide), fun _ _ _ => State.atReset_inv⟩

theorem load_inv {image : Option (List Byte)} {init : InitContents} {s : State} (h : load image init = .ok s)
    (hfits : init.fits s.cfg) : s.Inv := by
  obtain ⟨bytes, v, r, -, -, rfl⟩ := load_cases h
  refine State.atReset_inv (romBanksOf_pos _) (Memory.ofBytes_wf _ _) (fun c hc => ?_) hfits
  exact (Memory.ofBytes_within _ _ c hc).trans_le (le_romBanksOf _)

theorem registerRange_inv {s t : State} {a b : Addr} {h : Handler} (e : s.registerRange a b h = .ok t) (hs : s.Inv) :
    t.Inv := by
  obtain ⟨-, hwindow, -, rfl⟩ := registerRange_cases e
  obtain ⟨hbank, hfit, ⟨hsorted, hkeys⟩, hfixed, huntouched⟩ := hs
  refine ⟨hbank, hfit, ⟨sparseSorted_registerAll _ h hsorted, fun c hc => ?_⟩, hfixed, huntouched⟩
  obtain hc | ⟨x, hx, rfl⟩ := mem_registerAll hc
  · exact hkeys c hc
  · exact ⟨hwindow.trans (mem_addressRange.1 hx).1, Nat.le_of_lt_succ x.isLt⟩

/-- Settles O51, by induction on how the state was reached; issuing touches the queue only. -/
theorem reachableStatesSatisfyTheInvariant : Obligations.ReachableStatesSatisfyTheInvariant := by
  intro s hs
  induction hs with
  | loaded h hfits => exact load_inv h hfits
  | registered _ h ih => exact registerRange_inv h ih
  | issued _ ih => exact ih
  | stepped _ h ih => exact stepKeepsTheInvariant _ _ ih h

/-! ### What no step changes (R30) -/

theorem step_frame {s t : State} (h : step s = .next t) :
    t.cfg = s.cfg ∧ t.rom = s.rom ∧ t.ht = s.ht ∧ (s.phase = .run → t.phase = .run) ∧ (s.pending ≠ [] → t.phase = .run) := by
  obtain ⟨hp, rfl⟩ | ⟨w, rest, -, hexec⟩ := step_cases h
  · exact ⟨rfl, rfl, rfl, id, fun hne => absurd hp hne⟩
  · obtain ⟨hcfg, hrom, hht, hphase, -⟩ := exec_frame hexec
    exact ⟨hcfg, hrom, hht, fun _ => hphase, fun _ => hphase⟩

/-- Settles O52: every step completes (`everyTransactionCompletes`), with the frame of `step_frame`. -/
theorem stepKeepsConfigurationRomAndHandlers : Obligations.StepKeepsConfigurationRomAndHandlers := by
  intro s
  obtain ⟨t, h⟩ := everyTransactionCompletes.2 s
  exact ⟨t, h, step_frame h⟩

theorem runSteps_keeps_run {k : Nat} {s t : State} (h : runSteps k s = .next t) (hrun : s.phase = .run) :
    t.phase = .run := by
  induction k generalizing s with
  | zero =>
    cases h
    exact hrun
  | succ k ih =>
    obtain ⟨u, hu⟩ := everyTransactionCompletes.2 s
    obtain ⟨-, -, -, hkeep, -⟩ := step_frame hu
    exact ih ((runSteps_succ hu).symm.trans h) (hkeep hrun)

theorem State.register_late {s : State} (h : s.phase = .run) (a : Addr) (g : Handler) :
    s.register a g = .error (.lateRegistration a) := by
  rw [State.register, if_pos (by rw [h]; nofun)]

/-- Settles O59: the first step answers the waiting word and latches the run phase, which no step leaves. -/
theorem registrationEndsWithTheFirstTransaction : Obligations.RegistrationEndsWithTheFirstTransaction := by
  intro k s t w rest hp hrun a g
  obtain ⟨u, hu⟩ := everyTransactionCompletes.2 s
  obtain ⟨-, -, -, -, hlatch⟩ := step_frame hu
  have hu_run : u.phase = .run := hlatch (by rw [hp]; nofun)
  exact State.register_late (runSteps_keeps_run ((runSteps_succ hu).symm.trans hrun) hu_run) a g

end Sys2Proof.Machine
end

section
/-! PROOFS. The targets of the decoder (40_address_decoder.md R111 to R114): where every address resolves and what the
selector's ports carry, the byte a READ answers from its target, the one cell a WRITE reaches, and the events of both. -/

namespace Sys2Proof.Machine

/-! ### `resolve` over the ranges of R52 -/

section
variable (s : State) {a : Addr} (i : Intent)

theorem State.resolve_rom (h : a.toNat ≤ 0x7FFF) : s.resolve a i = .romCell (s.translateRom a) := by
  rcases Nat.lt_or_ge a.toNat 0x4000 with hlow | hhigh
  · exact s.resolve_rom0 i (region_rom0.2 (Nat.le_of_lt_succ hlow))
  · exact s.resolve_romx i (region_romx.2 ⟨hhigh, h⟩)

theorem State.resolve_cram_inaccessible (h : region a = .cram) (ha : s.accessible = false) :
    s.resolve a i = .unmapped := by
  simp [State.resolve, h, ha]

theorem State.resolve_unus (h : region a = .unus) : s.resolve a i = .unmapped := by
  simp [State.resolve, h]

theorem State.resolve_mmio_unhandled (h : region a = .mmio) (hnone : s.handlerAt a = none) :
    s.resolve a i = .unmapped := by
  simp [State.resolve, h, hnone]

end

/-- Settles O11: one equation of `resolve` per range, with the offset's definition and, in a banked region, the bound of a
bank index reduced modulo its count. -/
theorem resolveNamesTheCellOfEveryAddress : Obligations.ResolveNamesTheCellOfEveryAddress := by
  intro s a i hbanks
  refine ⟨fun hi => ?_, fun lo hi => ?_, fun lo hi => ?_, fun lo hi hon hram => ?_, fun lo hi hshut => ?_, fun lo hi => ?_,
    fun lo hi => ?_, fun lo hi => ?_, fun lo hi => ?_, fun g lo hg => ?_, fun lo hnone => ?_⟩
  · refine ⟨?_, by omega⟩
    rw [s.resolve_rom0 i (region_rom0.2 hi), s.translateRom_low hi]
  · refine ⟨?_, bank_offset_lt hbanks (by omega)⟩
    rw [s.resolve_romx i (region_romx.2 ⟨lo, hi⟩), s.translateRom_high lo]
  · refine ⟨?_, show _ < 0x2000 by omega⟩
    rw [s.resolve_vram i (region_vram.2 ⟨lo, hi⟩), vramOffset_eq]
  · refine ⟨?_, bank_offset_lt hram (by omega)⟩
    rw [s.resolve_cram i (region_cram.2 ⟨lo, hi⟩) (s.accessible_iff.2 ⟨hon, hram⟩), s.translateRam_eq]
  · exact s.resolve_cram_inaccessible i (region_cram.2 ⟨lo, hi⟩) (s.not_accessible_iff.2 hshut)
  · refine ⟨?_, by omega⟩
    rw [s.resolve_wram i (region_wram.2 ⟨lo, hi⟩), wramOffset_eq]
  · refine ⟨?_, by omega⟩
    rw [s.resolve_echo i (region_echo.2 ⟨lo, hi⟩), echoOffset_eq]
  · refine ⟨?_, by omega⟩
    rw [s.resolve_oam i (region_oam.2 ⟨lo, hi⟩), oamOffset_eq]
  · exact s.resolve_unus i (region_unus.2 ⟨lo, hi⟩)
  · exact s.resolve_mmio_handled i (region_mmio.2 lo) hg
  · exact s.resolve_mmio_unhandled i (region_mmio.2 lo) hnone

/-! ### The selector's ports (R8, R84, R85) -/

theorem Target.code_le (t : Target) : t.code ≤ 6 := by cases t <;> simp [Target.code]

theorem DiagKind.code_le (k : DiagKind) : k.code ≤ 3 := by cases k <;> decide

theorem State.selector_diag_le (s : State) (i : Intent) (a : Addr) : (s.selector i a).diag ≤ 3 := by
  rw [State.selector]
  cases s.diagKind a with
  | none => exact Nat.zero_le 3
  | some k => exact k.code_le

theorem bcWrite_iff {i : Intent} {a : Addr} : bcWrite i a = true ↔ i = .write ∧ a.toNat ≤ 0x7FFF := by
  cases i <;> simp [bcWrite]

theorem State.translateRom_le_port (s : State) {a : Addr} (hi : a.toNat ≤ 0x7FFF) : s.translateRom a ≤ 0x7FFFFF := by
  rcases Nat.lt_or_ge a.toNat 0x4000 with hlow | hhigh
  · rw [s.translateRom_low (Nat.le_of_lt_succ hlow)]
    omega
  · exact s.translateRom_le hhigh hi

/-- The offset port by the kind of cell: 23 bits for ROM, 17 for cartridge RAM, fewer elsewhere. -/
theorem State.resolve_offset_le (s : State) {a : Addr} {i : Intent} {o : Nat} (h : (s.resolve a i).offset = some o) :
    o ≤ 0x7FFFFF ∧ ((s.resolve a i).code = 1 → o ≤ 0x1FFFF) := by
  have hat := s.resolve_targetLiesAt i a
  cases htarget : s.resolve a i <;> rw [htarget] at h hat
  case romCell p =>
    obtain rfl := Option.some.inj h
    obtain ⟨hi, hp⟩ := hat
    exact ⟨hp ▸ s.translateRom_le_port hi, nofun⟩
  case ramCell p =>
    obtain rfl := Option.some.inj h
    obtain ⟨-, hi, hp⟩ := hat
    have hle : p ≤ 0x1FFFF := hp ▸ s.translateRam_le hi
    exact ⟨by omega, fun _ => hle⟩
  case vramCell p =>
    obtain rfl := Option.some.inj h
    obtain ⟨-, hi, hp⟩ := hat
    exact ⟨by omega, nofun⟩
  case wramCell p =>
    obtain rfl := Option.some.inj h
    refine ⟨?_, nofun⟩
    obtain ⟨-, hi, hp⟩ | ⟨-, hi, hp⟩ := hat <;> omega
  case oamCell p =>
    obtain rfl := Option.some.inj h
    obtain ⟨-, hi, hp⟩ := hat
    exact ⟨by omega, nofun⟩
  case mmioHandler g => exact nomatch h
  case unmapped => exact nomatch h

/-- Settles O12: `resolve` and `diag_kind` do not look at the intent, and each port carries a value of its width. -/
theorem selectorOutputsFitTheirPorts : Obligations.SelectorOutputsFitTheirPorts :=
  fun s a i => ⟨rfl, bcWrite_iff, ⟨rfl, rfl, rfl, rfl⟩, fun _ ho => s.resolve_offset_le ho, Target.code_le _,
    s.selector_diag_le i a⟩

/-! ### Diagnostic events (R113, R213) -/

section
variable (s : State) (a : Addr) (v : Byte)

theorem State.diagKind_echo_iff : s.diagKind a = some .echo ↔ region a = .echo := by
  unfold State.diagKind
  cases region a <;> cases s.handlerAt a <;> simp

theorem State.diagKind_unusedOam_iff : s.diagKind a = some .unusedOam ↔ region a = .unus := by
  unfold State.diagKind
  cases region a <;> cases s.handlerAt a <;> simp

theorem State.diagKind_unmapped_iff : s.diagKind a = some .unmapped ↔ region a = .mmio ∧ s.handlerAt a = none := by
  unfold State.diagKind
  cases region a <;> cases s.handlerAt a <;> simp

theorem State.emitIfFlagged_diags (k : Option DiagKind) :
    (s.emitIfFlagged k a).diags = s.diags ++ (k.map (DiagEvent.mk a)).toList := by
  cases k with
  | none => exact (List.append_nil _).symm
  | some k => rfl

@[simp] theorem State.onBankControlWrite_diags : (s.onBankControlWrite a v).diags = s.diags := by
  rw [State.onBankControlWrite_frame]

theorem State.facadeRead_diags :
    (s.facadeRead a).diags = s.diags ++ ((s.diagKind a).map (DiagEvent.mk a)).toList := by
  rw [State.facadeRead, State.emitIfFlagged_diags]
  cases s.resolve a .read <;> rfl

theorem State.facadeWrite_diags :
    (s.facadeWrite a v).diags = s.diags ++ ((s.diagKind a).map (DiagEvent.mk a)).toList := by
  rw [State.facadeWrite, State.emitIfFlagged_diags]
  cases s.resolve a .write with
  | romCell o => exact congrArg (· ++ _) (s.start.onBankControlWrite_diags a v)
  | ramCell o | vramCell o | wramCell o | oamCell o | mmioHandler g | unmapped => rfl

theorem exec_diags {i : Instr} (hwf : i.wf = true) :
    ∃ t, exec i s = .next t ∧ t.diags = s.diags ++ ((s.diagKind i.addr).map (DiagEvent.mk i.addr)).toList := by
  cases hi : i.intent with
  | read => exact ⟨_, exec_of_wf_read hwf hi, s.facadeRead_diags i.addr⟩
  | write => exact ⟨_, exec_of_wf_write hwf hi, s.facadeWrite_diags i.addr i.data⟩

end

/-- Settles O13: the kind by the region and the handler table; the event by `exec_diags`. -/
theorem oneEventPerFlaggedTransaction : Obligations.OneEventPerFlaggedTransaction := by
  refine ⟨fun s a => ⟨(s.diagKind_echo_iff a).trans region_echo, (s.diagKind_unusedOam_iff a).trans region_unus,
    (s.diagKind_unmapped_iff a).trans (and_congr_left' region_mmio)⟩, fun i s hwf => ?_⟩
  obtain ⟨t, hexec, hdiags⟩ := exec_diags s hwf
  refine ⟨t, hexec, fun k hk => ?_, fun hnone => ?_⟩
  · rw [hdiags, hk]
    rfl
  · rw [hdiags, hnone]
    exact List.append_nil _

/-! ### The byte a READ answers (R210) -/

/-- What a READ answers from a target that is no handler. -/
def State.targetByte (s : State) : Target → Byte
  | .romCell o => s.rom.read o
  | .ramCell o => s.sram.read o
  | .vramCell o => s.vram.read o
  | .wramCell o => s.wram.read o
  | .oamCell o => s.oam.read o
  | .mmioHandler _ | .unmapped => fillByte

theorem State.facadeRead_rdata_eq (s : State) {a : Addr} (h : a.toNat ≤ 0xFEFF) :
    (s.facadeRead a).rdata = some (s.targetByte (s.resolve a .read)) := by
  have hne := s.resolve_ne_handler .read h
  rw [State.facadeRead, State.emitIfFlagged_rdata]
  cases htarget : s.resolve a .read
  case mmioHandler g => exact absurd htarget (hne g)
  all_goals rfl

/-! ### The one cell a WRITE reaches (R211) -/

section
variable (s : State) (a : Addr) (v : Byte)

@[simp] theorem State.onBankControlWrite_rom : (s.onBankControlWrite a v).rom = s.rom := by
  rw [State.onBankControlWrite_frame]

@[simp] theorem State.onBankControlWrite_sram : (s.onBankControlWrite a v).sram = s.sram := by
  rw [State.onBankControlWrite_frame]

@[simp] theorem State.onBankControlWrite_vram : (s.onBankControlWrite a v).vram = s.vram := by
  rw [State.onBankControlWrite_frame]

@[simp] theorem State.onBankControlWrite_wram : (s.onBankControlWrite a v).wram = s.wram := by
  rw [State.onBankControlWrite_frame]

@[simp] theorem State.onBankControlWrite_oam : (s.onBankControlWrite a v).oam = s.oam := by
  rw [State.onBankControlWrite_frame]

theorem State.facadeWrite_sram_read (o : Nat) :
    (s.facadeWrite a v).sram.read o = if s.resolve a .write = .ramCell o then v else s.sram.read o := by
  rw [State.facadeWrite, State.emitIfFlagged_sram]
  cases s.resolve a .write <;> simp [Memory.read_write, eq_comm]

theorem State.facadeWrite_vram_read (o : Nat) :
    (s.facadeWrite a v).vram.read o = if s.resolve a .write = .vramCell o then v else s.vram.read o := by
  rw [State.facadeWrite, State.emitIfFlagged_vram]
  cases s.resolve a .write <;> simp [Memory.read_write, eq_comm]

theorem State.facadeWrite_wram_read (o : Nat) :
    (s.facadeWrite a v).wram.read o = if s.resolve a .write = .wramCell o then v else s.wram.read o := by
  rw [State.facadeWrite, State.emitIfFlagged_wram]
  cases s.resolve a .write <;> simp [Memory.read_write, eq_comm]

theorem State.facadeWrite_oam_read (o : Nat) :
    (s.facadeWrite a v).oam.read o = if s.resolve a .write = .oamCell o then v else s.oam.read o := by
  rw [State.facadeWrite, State.emitIfFlagged_oam]
  cases s.resolve a .write <;> simp [Memory.read_write, eq_comm]

@[simp] theorem State.facadeWrite_rom : (s.facadeWrite a v).rom = s.rom := by
  obtain ⟨-, hrom, -⟩ := exec_frame (exec_decodeWrite s (a := a) v)
  exact hrom

/-- A WRITE leaves what a READ would answer from every other target; with nothing mapped it leaves them all. -/
theorem State.facadeWrite_targetByte_of_ne {t : Target}
    (h : s.resolve a .write = .unmapped ∨ s.resolve a .write ≠ t) :
    (s.facadeWrite a v).targetByte t = s.targetByte t := by
  have hne : t = .unmapped ∨ s.resolve a .write ≠ t := by
    obtain hnone | hne := h
    · rw [hnone]
      exact (em (t = .unmapped)).imp_right Ne.symm
    · exact .inr hne
  cases t with
  | romCell o => exact congrArg (Memory.read · o) (s.facadeWrite_rom a v)
  | ramCell o => exact (s.facadeWrite_sram_read a v o).trans (if_neg (hne.resolve_left nofun))
  | vramCell o => exact (s.facadeWrite_vram_read a v o).trans (if_neg (hne.resolve_left nofun))
  | wramCell o => exact (s.facadeWrite_wram_read a v o).trans (if_neg (hne.resolve_left nofun))
  | oamCell o => exact (s.facadeWrite_oam_read a v o).trans (if_neg (hne.resolve_left nofun))
  | mmioHandler g | unmapped => rfl

end

section
variable (s : State) {a : Addr} (v : Byte)

theorem isBankControl_decodeWrite_storage (h : 0x8000 ≤ a.toNat) : isBankControl (decodeWrite a v) = false := by
  rw [decodeWrite]
  cases hr : region a with
  | rom0 =>
    have := region_rom0.1 hr
    omega
  | romx =>
    have := region_romx.1 hr
    omega
  | vram | cram | wram | echo | oam | unus | mmio => rfl

/-- A WRITE outside the ROM ranges leaves the address map as it is. -/
theorem State.facadeWrite_resolve (h : 0x8000 ≤ a.toNat) (b : Addr) (i : Intent) :
    (s.facadeWrite a v).resolve b i = s.resolve b i := by
  have hexec := exec_decodeWrite s (a := a) v
  obtain ⟨hcfg, -, hht, -⟩ := exec_frame hexec
  obtain ⟨t, ht, hrom, hram, hgate⟩ := exec_keeps_bank_registers s (isBankControl_decodeWrite_storage v h)
  obtain rfl := Host.Outcome.next.inj (ht.symm.trans hexec)
  exact State.resolve_congr b i hcfg hrom hram hgate hht

/-- A mapped cell outside the ROM ranges takes the byte written. -/
theorem State.facadeWrite_targetByte_self (lo : 0x8000 ≤ a.toNat) (hi : a.toNat ≤ 0xFEFF)
    (hmapped : s.resolve a .write ≠ .unmapped) : (s.facadeWrite a v).targetByte (s.resolve a .write) = v := by
  have hat := s.resolve_targetLiesAt .write a
  cases htarget : s.resolve a .write <;> rw [htarget] at hat
  case romCell o =>
    obtain ⟨hrom, -⟩ := hat
    omega
  case ramCell o => exact (s.facadeWrite_sram_read a v o).trans (if_pos htarget)
  case vramCell o => exact (s.facadeWrite_vram_read a v o).trans (if_pos htarget)
  case wramCell o => exact (s.facadeWrite_wram_read a v o).trans (if_pos htarget)
  case oamCell o => exact (s.facadeWrite_oam_read a v o).trans (if_pos htarget)
  case mmioHandler g => exact absurd htarget (s.resolve_ne_handler .write hi g)
  case unmapped => exact absurd htarget hmapped

/-- A READ after a WRITE outside the ROM ranges answers from the target its address had before. -/
theorem State.facadeRead_facadeWrite_rdata {b : Addr} (ha : 0x8000 ≤ a.toNat) (hb : b.toNat ≤ 0xFEFF) :
    ((s.facadeWrite a v).facadeRead b).rdata = some ((s.facadeWrite a v).targetByte (s.resolve b .read)) := by
  rw [State.facadeRead_rdata_eq _ hb, s.facadeWrite_resolve v ha]

end

/-- Settles O42: the address map stays, and so does the byte of every target but the one written. -/
theorem aWriteLeavesEveryOtherCell : Obligations.AWriteLeavesEveryOtherCell := by
  intro s a b v d lo _ hb hother
  refine ⟨_, _, _, _, exec_decodeRead s b, s.facadeRead_rdata_eq hb, exec_decodeWrite s v, exec_decodeRead _ b, ?_⟩
  rw [s.facadeRead_facadeWrite_rdata v lo hb, s.facadeWrite_targetByte_of_ne a v hother]

theorem State.resolve_ne_unmapped (s : State) {a : Addr} (i : Intent)
    (h : (0x8000 ≤ a.toNat ∧ a.toNat ≤ 0x9FFF) ∨ (0xC000 ≤ a.toNat ∧ a.toNat ≤ 0xFE9F) ∨
      (0xA000 ≤ a.toNat ∧ a.toNat ≤ 0xBFFF ∧ s.ramEnable = true ∧ 0 < s.cfg.ramBanks)) : s.resolve a i ≠ .unmapped := by
  intro hnone
  have hat := s.resolve_targetLiesAt i a
  rw [hnone] at hat
  obtain ⟨lo, hi⟩ | ⟨lo, hi⟩ | ⟨lo, hi, hopen⟩ := h
  · obtain ⟨lo', hi'⟩ | lo' := hat <;> omega
  · obtain ⟨lo', hi'⟩ | lo' := hat <;> omega
  · exact nomatch (s.resolve_cram i (region_cram.2 ⟨lo, hi⟩) (s.accessible_iff.2 hopen)).symm.trans hnone

/-- Settles O41: the address maps to a cell that takes the byte, and the READ in the next step answers from that cell. -/
theorem writeThenReadReturnsTheByte : Obligations.WriteThenReadReturnsTheByte := by
  intro s a v d rest hrange hp
  have hmapped := State.resolve_ne_unmapped { s with pending := packWord .read a d :: rest } .write hrange
  have hwrite := exec_decodeWrite { s with pending := packWord .read a d :: rest } (a := a) v
  obtain ⟨-, -, -, -, hqueue⟩ := exec_frame hwrite
  refine ⟨_, _, (step_packWord hp).trans hwrite, (step_packWord hqueue).trans (exec_decodeRead _ a), ?_⟩
  refine (State.facadeRead_rdata_eq _ (by omega)).trans (congrArg some ?_)
  exact (congrArg _ (State.facadeWrite_resolve _ v (by omega) a .read)).trans
    (State.facadeWrite_targetByte_self _ v (by omega) (by omega) hmapped)

/-! ### ROM ignores what is written to its addresses (R154, R157) -/

/-- No bank-control write moves the bank shown at its own address: the two that set `rom_bank` lie in the fixed half. -/
theorem State.onBankControlWrite_translateRom (s : State) (a : Addr) (v : Byte) :
    (s.onBankControlWrite a v).translateRom a = s.translateRom a := by
  rcases Nat.lt_or_ge a.toNat 0x4000 with hlow | hhigh
  · rw [State.translateRom_low _ (Nat.le_of_lt_succ hlow), State.translateRom_low _ (Nat.le_of_lt_succ hlow)]
  · rcases Nat.lt_or_ge a.toNat 0x6000 with hramb | hrsv6
    · rw [s.onBankControlWrite_ramb v hhigh (Nat.le_of_lt_succ hramb), State.writeRamBank_frame]
      rfl
    · rw [s.onBankControlWrite_rsv6 v hrsv6]

/-- Settles O24: the WRITE is a bank-control write, which leaves `ROM` and the offset its own address translates to. -/
theorem writingToRomLeavesWhatIsReadThere : Obligations.WritingToRomLeavesWhatIsReadThere := by
  intro s a v d hi
  have hread : ∀ t : State, (t.facadeRead a).rdata = some (t.rom.read (t.translateRom a)) := fun t => by
    rw [t.facadeRead_rdata_eq (hi.trans (by decide)), t.resolve_rom .read hi]
    rfl
  refine ⟨_, _, _, _, exec_decodeRead s a, hread s, exec_decodeWrite_rom s v hi, State.onBankControlWrite_rom _ a v,
    exec_decodeRead _ a, ?_⟩
  rw [hread, State.onBankControlWrite_translateRom, State.onBankControlWrite_rom]
  rfl

end Sys2Proof.Machine
end

section
/-! PROOFS. Cells no bus operation reaches (10_state.md section 4, R27, R28): no address resolves to `WRAM` from 0x2000 up
or to `OAM` from 0xA0 up, so two machines that differ only there take every transaction alike, and keep those bytes. -/

namespace Sys2Proof.Machine

/-! ### The reachable offsets -/

theorem State.wramCell_lt {s : State} {a : Addr} {i : Intent} {o : Nat} (h : s.resolve a i = .wramCell o) :
    o < 0x2000 := by
  have hat := s.resolve_targetLiesAt i a
  rw [h] at hat
  obtain ⟨lo, hi, ho⟩ | ⟨lo, hi, ho⟩ := hat <;> omega

theorem State.oamCell_lt {s : State} {a : Addr} {i : Intent} {o : Nat} (h : s.resolve a i = .oamCell o) : o < 0xA0 := by
  have hat := s.resolve_targetLiesAt i a
  rw [h] at hat
  obtain ⟨lo, hi, ho⟩ := hat
  omega

/-! ### A machine with other `WRAM` and `OAM` contents -/

/-- The same machine with other contents of the two regions that have unreachable bytes. -/
def State.withWramOam (s : State) (wram oam : Memory) : State := { s with wram := wram, oam := oam }

section
variable (s : State) (wram oam : Memory) (a : Addr) (v : Byte)

theorem State.resolve_withWramOam (i : Intent) : (s.withWramOam wram oam).resolve a i = s.resolve a i :=
  State.resolve_congr a i rfl rfl rfl rfl rfl

theorem State.diagKind_withWramOam : (s.withWramOam wram oam).diagKind a = s.diagKind a := rfl

theorem State.emitIfFlagged_withWramOam (k : Option DiagKind) :
    (s.withWramOam wram oam).emitIfFlagged k a = (s.emitIfFlagged k a).withWramOam wram oam := by
  cases k <;> rfl

/-- The bank controller does not look at the two regions. -/
theorem State.onBankControlWrite_withWramOam :
    (s.withWramOam wram oam).onBankControlWrite a v = (s.onBankControlWrite a v).withWramOam wram oam := by
  have hcfg : (s.withWramOam wram oam).cfg = s.cfg := rfl
  simp only [State.onBankControlWrite, State.writeRamGate, State.writeRomBankLow, State.writeRomBankHigh,
    State.writeRamBank, hcfg]
  cases s.cfg.variant <;> (repeat' split) <;> rfl

/-- A READ answers from reachable cells, and touches neither region. -/
theorem State.facadeRead_withWramOam (hwram : ∀ o < 0x2000, wram.read o = s.wram.read o)
    (hoam : ∀ o < 0xA0, oam.read o = s.oam.read o) :
    (s.withWramOam wram oam).facadeRead a = (s.facadeRead a).withWramOam wram oam := by
  rw [State.facadeRead, State.facadeRead, State.resolve_withWramOam, State.diagKind_withWramOam,
    ← State.emitIfFlagged_withWramOam]
  refine congrArg (State.emitIfFlagged _ _) ?_
  cases htarget : s.resolve a .read with
  | wramCell o => exact congrArg ((s.withWramOam wram oam).start.answer ·) (hwram o (State.wramCell_lt htarget))
  | oamCell o => exact congrArg ((s.withWramOam wram oam).start.answer ·) (hoam o (State.oamCell_lt htarget))
  | romCell o | ramCell o | vramCell o | mmioHandler g | unmapped => rfl

/-- A WRITE makes the same changes, but for what the two regions held before. -/
theorem State.facadeWrite_withWramOam :
    (s.withWramOam wram oam).facadeWrite a v = (s.facadeWrite a v).withWramOam
      ((s.withWramOam wram oam).facadeWrite a v).wram ((s.withWramOam wram oam).facadeWrite a v).oam := by
  rw [State.facadeWrite, State.facadeWrite, State.resolve_withWramOam, State.diagKind_withWramOam,
    ← State.emitIfFlagged_withWramOam]
  simp only [State.emitIfFlagged_wram, State.emitIfFlagged_oam]
  refine congrArg (State.emitIfFlagged _ _) ?_
  cases s.resolve a .write with
  | romCell o =>
    have hbank := s.start.onBankControlWrite_withWramOam wram oam a v
    show (s.start.withWramOam wram oam).onBankControlWrite a v = (s.start.onBankControlWrite a v).withWramOam
      ((s.start.withWramOam wram oam).onBankControlWrite a v).wram
      ((s.start.withWramOam wram oam).onBankControlWrite a v).oam
    rw [hbank]
    rfl
  | ramCell o | vramCell o | wramCell o | oamCell o | mmioHandler g | unmapped => rfl

end

/-! ### Machines alike but for the unreachable bytes -/

/-- The bytes of `t` that no operation reaches are those of `t'` too. -/
def State.keepsUnreachable (t t' : State) : Prop :=
  (∀ o, 0x2000 ≤ o → t'.wram.read o = t.wram.read o) ∧ ∀ o, 0xA0 ≤ o → t'.oam.read o = t.oam.read o

section
variable {s t : State} (h : s.sameReachable t) (a : Addr) (v : Byte)
include h

theorem State.sameReachable_outputs :
    t.pending = s.pending ∧ t.rdata = s.rdata ∧ t.diags = s.diags ∧ t.dispatches = s.dispatches := by
  rw [h.1]
  exact ⟨rfl, rfl, rfl, rfl⟩

theorem State.sameReachable_facadeRead :
    (s.facadeRead a).sameReachable (t.facadeRead a) ∧ t.keepsUnreachable (t.facadeRead a) := by
  obtain ⟨ht, hwram, hoam⟩ := h
  have hread : t.facadeRead a = (s.facadeRead a).withWramOam t.wram t.oam :=
    (congrArg (State.facadeRead · a) ht).trans (s.facadeRead_withWramOam _ _ a hwram hoam)
  rw [hread, s.facadeRead_frame]
  exact ⟨⟨rfl, hwram, hoam⟩, fun _ _ => rfl, fun _ _ => rfl⟩

theorem State.sameReachable_facadeWrite :
    (s.facadeWrite a v).sameReachable (t.facadeWrite a v) ∧ t.keepsUnreachable (t.facadeWrite a v) := by
  obtain ⟨ht, hwram, hoam⟩ := h
  have hresolve : t.resolve a .write = s.resolve a .write := by
    rw [ht]
    exact s.resolve_withWramOam t.wram t.oam a .write
  have hframe : t.facadeWrite a v =
      (s.facadeWrite a v).withWramOam (t.facadeWrite a v).wram (t.facadeWrite a v).oam := by
    have := s.facadeWrite_withWramOam t.wram t.oam a v
    rwa [show s.withWramOam t.wram t.oam = t from ht.symm] at this
  refine ⟨⟨hframe, fun o ho => ?_, fun o ho => ?_⟩, fun o ho => ?_, fun o ho => ?_⟩
  · rw [State.facadeWrite_wram_read, State.facadeWrite_wram_read, hresolve, hwram o ho]
  · rw [State.facadeWrite_oam_read, State.facadeWrite_oam_read, hresolve, hoam o ho]
  · rw [State.facadeWrite_wram_read, if_neg fun hcell => Nat.not_lt_of_le ho (State.wramCell_lt hcell)]
  · rw [State.facadeWrite_oam_read, if_neg fun hcell => Nat.not_lt_of_le ho (State.oamCell_lt hcell)]

theorem State.sameReachable_exec (w : BusWord) : ∃ s' t', exec (decodeWord w) s = .next s' ∧
    exec (decodeWord w) t = .next t' ∧ s'.sameReachable t' ∧ t.keepsUnreachable t' := by
  cases hi : intentField w with
  | read => exact ⟨_, _, exec_decodeWord_read hi, exec_decodeWord_read hi, State.sameReachable_facadeRead h _⟩
  | write => exact ⟨_, _, exec_decodeWord_write hi, exec_decodeWord_write hi, State.sameReachable_facadeWrite h _ _⟩

theorem State.sameReachable_step : ∃ s' t', step s = .next s' ∧ step t = .next t' ∧ s'.sameReachable t' ∧
    t.keepsUnreachable t' := by
  obtain ⟨hqueue, -⟩ := State.sameReachable_outputs h
  cases hp : s.pending with
  | nil =>
    exact ⟨s, t, step_of_pending_nil hp, step_of_pending_nil (hqueue.trans hp), h, fun _ _ => rfl, fun _ _ => rfl⟩
  | cons w rest =>
    obtain ⟨ht, hcells⟩ := h
    have htaken : ({ s with pending := rest } : State).sameReachable { t with pending := rest } :=
      ⟨congrArg (fun u : State => { u with pending := rest }) ht, hcells⟩
    rw [step_of_pending_cons hp, step_of_pending_cons (hqueue.trans hp)]
    exact State.sameReachable_exec htaken w

end

/-- Settles O53: `State.sameReachable_step`; the outputs are fields in which the two machines agree. -/
theorem unreachableCellsAreInvisible : Obligations.UnreachableCellsAreInvisible := by
  intro s t s' h hstep
  obtain ⟨u, t', hu, ht', hsame, hwram, hoam⟩ := State.sameReachable_step h
  obtain rfl := Host.Outcome.next.inj (hu.symm.trans hstep)
  obtain ⟨-, hrdata, hdiags, hdispatches⟩ := State.sameReachable_outputs hsame
  exact ⟨t', ht', hsame, hrdata, hdiags, hdispatches, hwram, hoam⟩

end Sys2Proof.Machine
end

section
/-! PROOFS. The bank-control writes (41_bank_controller.md R158 to R162, R165): the register each sets in `BANKED`, nothing
in `NONE`; what the gate hides and shows again; the fixed banks of `NONE`; and the write that governs the next transaction
(70_reset_and_hazards.md section 2). -/

namespace Sys2Proof.Machine

/-! ### The five operations -/

section
variable {s : State} (a : Addr) (v : Byte) (h : s.cfg.variant = .banked)
include h

theorem exec_wrRamg_banked : exec (.wrRamg a v) s = .next { s.start with ramEnable := ramGate v s.ramEnable } :=
  congrArg Host.Outcome.next (s.start.writeRamGate_banked v h)

theorem exec_wrRomb0_banked : exec (.wrRomb0 a v) s = .next { s.start with romBank := withLowByte s.romBank v } :=
  congrArg Host.Outcome.next (s.start.writeRomBankLow_banked v h)

theorem exec_wrRomb1_banked : exec (.wrRomb1 a v) s = .next { s.start with romBank := withNinthBit s.romBank v } :=
  congrArg Host.Outcome.next (s.start.writeRomBankHigh_banked v h)

theorem exec_wrRamb_banked : exec (.wrRamb a v) s = .next { s.start with ramBank := ramBankOperand v } :=
  congrArg Host.Outcome.next (s.start.writeRamBank_banked v h)

end

/-- Settles O18: the latch takes `ramGate` of the byte (R158). -/
theorem wrRamgSetsClearsOrKeepsTheLatch : Obligations.WrRamgSetsClearsOrKeepsTheLatch := by
  intro s a v hi
  refine ⟨decodeWrite_ramg v hi, fun hbanked => ⟨_, exec_wrRamg_banked a v hbanked, rfl, ?_, ?_, ?_⟩,
    fun hnone => exec_bankControl_none rfl hnone⟩
  · rintro rfl
    exact ramGate_set s.ramEnable
  · rintro rfl
    exact ramGate_clear s.ramEnable
  · exact ramGate_other s.ramEnable

/-- Settles O19: the new bank number is `withLowByte` of the old one and the byte (R159). -/
theorem wrRomb0WritesTheLowBankByte : Obligations.WrRomb0WritesTheLowBankByte :=
  fun s a v lo hi => ⟨decodeWrite_romb0 v lo hi,
    fun hbanked => ⟨_, exec_wrRomb0_banked a v hbanked, rfl, withLowByte_toNat s.romBank v⟩,
    fun hnone => exec_bankControl_none rfl hnone⟩

/-- Settles O20: the new bank number is `withNinthBit` of the old one and the byte (R160). -/
theorem wrRomb1WritesTheNinthBankBit : Obligations.WrRomb1WritesTheNinthBankBit :=
  fun s a v lo hi => ⟨decodeWrite_romb1 v lo hi,
    fun hbanked => ⟨_, exec_wrRomb1_banked a v hbanked, rfl, withNinthBit_toNat s.romBank v⟩,
    fun hnone => exec_bankControl_none rfl hnone⟩

/-- Settles O21: the new bank number is `ramBankOperand` of the byte, whatever the gate is (R161). -/
theorem wrRambWritesTheRamBank : Obligations.WrRambWritesTheRamBank :=
  fun _ a v lo hi => ⟨decodeWrite_ramb v lo hi,
    fun hbanked => ⟨_, exec_wrRamb_banked a v hbanked, rfl, ramBankOperand_toNat v⟩,
    fun hnone => exec_bankControl_none rfl hnone⟩

/-- Settles O22: the write is forwarded, and its meaning only starts the transaction (R162). -/
theorem wrRsv6ChangesNothing : Obligations.WrRsv6ChangesNothing :=
  fun _ _ v lo hi => ⟨decodeWrite_rsv6 v lo hi, bcWrite_iff.2 ⟨rfl, hi⟩, rfl⟩

/-! ### Cartridge RAM through the gate (R155, R163, R164) -/

/-- The state WR.RAMG leaves in `BANKED` when it opens or shuts the gate. -/
def State.gated (s : State) (opened : Bool) : State := { s.start with ramEnable := opened }

section
variable {s : State}

theorem exec_wrRamg_set (a : Addr) (h : s.cfg.variant = .banked) : exec (.wrRamg a 0x0A) s = .next (s.gated true) :=
  (exec_wrRamg_banked a 0x0A h).trans (by rw [ramGate_set]; rfl)

theorem exec_wrRamg_clear (a : Addr) (h : s.cfg.variant = .banked) : exec (.wrRamg a 0x00) s = .next (s.gated false) :=
  (exec_wrRamg_banked a 0x00 h).trans (by rw [ramGate_clear]; rfl)

theorem State.gated_accessible (h : 0 < s.cfg.ramBanks) : (s.gated true).accessible = true :=
  (s.gated true).accessible_iff.2 ⟨rfl, h⟩

theorem State.gated_inaccessible : (s.gated false).accessible = false :=
  (s.gated false).not_accessible_iff.2 (.inl rfl)

end

/-- Settles O27: the shut gate answers the fill byte and drops the write, so `SRAM` is what it was when the gate opens
again. -/
theorem cartridgeRamSurvivesTheDisabledInterval : Obligations.CartridgeRamSurvivesTheDisabledInterval := by
  intro s g g' a v hbanked hacc _ _ _ _
  obtain ⟨-, hbanks⟩ := s.accessible_iff.1 hacc
  exact ⟨s.gated false, _, _, _, _, exec_wrRamg_clear g hbanked, exec_rdCram_inaccessible _ a s.gated_inaccessible, rfl,
    exec_wrCram_inaccessible _ a v s.gated_inaccessible, exec_wrRamg_set g' hbanked,
    exec_rdCram_accessible _ a (State.gated_accessible hbanks), rfl, rfl⟩

/-- Settles O28: the two translations at the fixed register values; every instruction keeps those values. -/
theorem noneVariantShowsFixedBanks : Obligations.NoneVariantShowsFixedBanks := by
  intro s hnone hfixed
  obtain ⟨hrom, hram, hgate⟩ := hfixed hnone
  refine ⟨fun a lo hi => ⟨_, rfl, ?_⟩, fun a lo hi hbanks => ?_, fun i => ?_⟩
  · rw [← romxOffset_eq, State.answer_rdata, hrom]
    rfl
  · refine ⟨_, exec_rdCram_accessible s a (s.accessible_iff.2 ⟨hgate, hbanks⟩), ?_⟩
    rw [State.answer_rdata, s.translateRam_eq, hram, show (0 : BitVec 4).toNat = 0 from rfl, Nat.zero_mod, Nat.zero_mul,
      Nat.zero_add]
  · obtain ⟨t, h⟩ := exec_completes i s
    obtain ⟨hcfg, -⟩ := exec_frame h
    exact ⟨t, h, exec_keeps_noneIsFixed h hfixed, hcfg⟩

/-! ### The next transaction -/

/-- The state a bank-control write leaves, with the words `queue` still waiting. -/
def State.afterBankWrite (s : State) (queue : List BusWord) (a : Addr) (v : Byte) : State :=
  ({ s with pending := queue } : State).start.onBankControlWrite a v

section
variable (s : State) (queue rest : List BusWord) {a : Addr} (v : Byte)

@[simp] theorem State.afterBankWrite_pending : (s.afterBankWrite queue a v).pending = queue := by
  rw [State.afterBankWrite, State.onBankControlWrite_frame]
  rfl

theorem State.afterBankWrite_take :
    { s.afterBankWrite queue a v with pending := rest } = s.afterBankWrite rest a v := by
  simp only [State.afterBankWrite, State.onBankControlWrite, State.writeRamGate, State.writeRomBankLow,
    State.writeRomBankHigh, State.writeRamBank, State.start]
  cases s.cfg.variant <;> (repeat' split) <;> rfl

theorem step_bankWrite {s : State} {queue : List BusWord} (ha : a.toNat ≤ 0x7FFF)
    (hp : s.pending = packWord .write a v :: queue) : step s = .next (s.afterBankWrite queue a v) :=
  (step_packWord hp).trans (exec_decodeWrite_rom _ v ha)

/-- After a bank-control write the next step runs its transaction on the registers the write leaves. -/
theorem steps_bankWrite_then {s u : State} {rest : List BusWord} {i : Intent} {b : Addr} {d : Byte}
    (ha : a.toNat ≤ 0x7FFF) (hp : s.pending = packWord .write a v :: packWord i b d :: rest)
    (hexec : exec (decodeAccess i b d) (s.afterBankWrite rest a v) = .next u) :
    ∃ t, step s = .next t ∧ step t = .next u ∧ u.pending = rest := by
  obtain ⟨-, -, -, -, hpending⟩ := exec_frame hexec
  refine ⟨_, step_bankWrite v ha hp, ?_, hpending.trans (s.afterBankWrite_pending rest v)⟩
  rw [step_packWord (s.afterBankWrite_pending _ v), State.afterBankWrite_take]
  exact hexec

end

/-! What a bank-control write in `BANKED` leaves: the two translations and the gate. -/

section
variable (s : State) (queue : List BusWord) {a : Addr} (v : Byte)

@[simp] theorem State.afterBankWrite_rom : (s.afterBankWrite queue a v).rom = s.rom :=
  State.onBankControlWrite_rom _ a v

@[simp] theorem State.afterBankWrite_sram : (s.afterBankWrite queue a v).sram = s.sram :=
  State.onBankControlWrite_sram _ a v

end

section
variable {s : State} (queue : List BusWord) {a b : Addr} (v : Byte) (h : s.cfg.variant = .banked)
include h

theorem State.afterBankWrite_romb0 (lo : 0x2000 ≤ a.toNat) (hi : a.toNat ≤ 0x2FFF) :
    s.afterBankWrite queue a v = { s.start with pending := queue, romBank := withLowByte s.romBank v } :=
  (State.onBankControlWrite_romb0 v _ lo hi).trans (State.writeRomBankLow_banked v _ h)

theorem State.afterBankWrite_romb1 (lo : 0x3000 ≤ a.toNat) (hi : a.toNat ≤ 0x3FFF) :
    s.afterBankWrite queue a v = { s.start with pending := queue, romBank := withNinthBit s.romBank v } :=
  (State.onBankControlWrite_romb1 v _ lo hi).trans (State.writeRomBankHigh_banked v _ h)

theorem State.afterBankWrite_romb0_translateRom (lo : 0x2000 ≤ a.toNat) (hi : a.toNat ≤ 0x2FFF) (hb : 0x4000 ≤ b.toNat) :
    (s.afterBankWrite queue a v).translateRom b =
      ((s.romBank.toNat / 0x100 * 0x100 + v.toNat) % s.cfg.romBanks) * 0x4000 + (b.toNat - 0x4000) := by
  rw [State.afterBankWrite_romb0 queue v h lo hi, State.translateRom_high _ hb, withLowByte_toNat]
  rfl

theorem State.afterBankWrite_romb1_translateRom (lo : 0x3000 ≤ a.toNat) (hi : a.toNat ≤ 0x3FFF) (hb : 0x4000 ≤ b.toNat) :
    (s.afterBankWrite queue a v).translateRom b =
      ((v.toNat % 2 * 0x100 + s.romBank.toNat % 0x100) % s.cfg.romBanks) * 0x4000 + (b.toNat - 0x4000) := by
  rw [State.afterBankWrite_romb1 queue v h lo hi, State.translateRom_high _ hb, withNinthBit_toNat]
  rfl

theorem State.afterBankWrite_ramb (lo : 0x4000 ≤ a.toNat) (hi : a.toNat ≤ 0x5FFF) :
    (s.afterBankWrite queue a v).accessible = s.accessible ∧ (s.afterBankWrite queue a v).translateRam b =
      (v.toNat % 0x10 % s.cfg.ramBanks) * 0x2000 + (b.toNat - 0xA000) := by
  have hstate : s.afterBankWrite queue a v = { s.start with pending := queue, ramBank := ramBankOperand v } :=
    (State.onBankControlWrite_ramb v _ lo hi).trans (State.writeRamBank_banked v _ h)
  rw [hstate, State.translateRam_eq, ramBankOperand_toNat]
  exact ⟨rfl, rfl⟩

theorem State.afterBankWrite_ramg (hi : a.toNat ≤ 0x1FFF) :
    (s.afterBankWrite queue a v).accessible = (ramGate v s.ramEnable && decide (0 < s.cfg.ramBanks)) ∧
      (s.afterBankWrite queue a v).translateRam b =
        (s.ramBank.toNat % s.cfg.ramBanks) * 0x2000 + (b.toNat - 0xA000) := by
  have hstate : s.afterBankWrite queue a v = { s.start with pending := queue, ramEnable := ramGate v s.ramEnable } :=
    (State.onBankControlWrite_ramg v _ hi).trans (State.writeRamGate_banked v _ h)
  rw [hstate, State.translateRam_eq]
  exact ⟨rfl, rfl⟩

end

/-! What the next transaction does, in the terms of the state the write leaves. -/

section
variable {s : State} {a b : Addr} {v d : Byte} {rest : List BusWord} (ha : a.toNat ≤ 0x7FFF)
include ha

theorem steps_bankWrite_rdRomx (lo : 0x4000 ≤ b.toNat) (hi : b.toNat ≤ 0x7FFF)
    (hp : s.pending = packWord .write a v :: packWord .read b d :: rest) :
    ∃ t u, step s = .next t ∧ step t = .next u ∧ u.pending = rest ∧
      u.rdata = some (s.rom.read ((s.afterBankWrite rest a v).translateRom b)) := by
  obtain ⟨t, ht, hu, hrest⟩ := steps_bankWrite_then v ha hp (exec_decodeRead _ b)
  refine ⟨t, _, ht, hu, hrest, ?_⟩
  rw [State.facadeRead_rdata_eq _ (by omega), State.resolve_rom _ .read hi, State.targetByte, State.afterBankWrite_rom]

theorem steps_bankWrite_rdCram (lo : 0xA000 ≤ b.toNat) (hi : b.toNat ≤ 0xBFFF)
    (hp : s.pending = packWord .write a v :: packWord .read b d :: rest) :
    ∃ t u, step s = .next t ∧ step t = .next u ∧ u.pending = rest ∧
      u.rdata = some (if (s.afterBankWrite rest a v).accessible = true then
        s.sram.read ((s.afterBankWrite rest a v).translateRam b) else 0xFF) := by
  have hexec : exec (decodeAccess .read b d) (s.afterBankWrite rest a v) = _ := congrArg (exec · _) (decodeRead_cram lo hi)
  obtain ⟨t, ht, hu, hrest⟩ := steps_bankWrite_then v ha hp hexec
  refine ⟨t, _, ht, hu, hrest, ?_⟩
  rw [State.answer_rdata, State.afterBankWrite_sram]
  rfl

theorem steps_bankWrite_wrCram (lo : 0xA000 ≤ b.toNat) (hi : b.toNat ≤ 0xBFFF)
    (hp : s.pending = packWord .write a v :: packWord .write b d :: rest) :
    ∃ t u, step s = .next t ∧ step t = .next u ∧ u.pending = rest ∧
      ((s.afterBankWrite rest a v).accessible = false → u.sram = s.sram) ∧
      ∀ o, u.sram.read o = if (s.afterBankWrite rest a v).accessible = true ∧
        o = (s.afterBankWrite rest a v).translateRam b then d else s.sram.read o := by
  have hdecode : decodeAccess .write b d = .wrCram b d := decodeWrite_cram d lo hi
  cases hacc : (s.afterBankWrite rest a v).accessible with
  | true =>
    obtain ⟨t, ht, hu, hrest⟩ := steps_bankWrite_then v ha hp (hdecode ▸ exec_wrCram_accessible _ b d hacc)
    exact ⟨t, _, ht, hu, hrest, nofun, fun o => by simp [Memory.read_write]⟩
  | false =>
    obtain ⟨t, ht, hu, hrest⟩ := steps_bankWrite_then v ha hp (hdecode ▸ exec_wrCram_inaccessible _ b d hacc)
    exact ⟨t, _, ht, hu, hrest, fun _ => s.afterBankWrite_sram rest v, fun o => by simp⟩

end

/-- Settles O29: the queue leaves the next word in front, and its instruction runs on the state the write leaves; then per
register, what that state translates and gates. -/
theorem bankWriteGovernsTheNextTransaction : Obligations.BankWriteGovernsTheNextTransaction := by
  refine ⟨fun s a v w rest ha hp => ?_, fun s a b v d rest hbanked lo hi hp => ⟨fun ha ha' => ?_, fun ha ha' => ?_⟩,
    fun s a b v d rest hbanked lo hi hp => ⟨fun ha ha' hacc => ?_, fun ha => ?_⟩,
    fun s a b v d rest hbanked lo hi hp => ⟨fun ha ha' hacc => ?_, fun ha => ?_⟩⟩
  · exact ⟨_, step_bankWrite v ha hp, rfl, step_of_pending_cons (s.afterBankWrite_pending _ v)⟩
  · obtain ⟨t, u, ht, hu, hrest, hbyte⟩ := steps_bankWrite_rdRomx (by omega) lo hi hp
    rw [State.afterBankWrite_romb0_translateRom rest v hbanked ha ha' lo] at hbyte
    exact ⟨t, u, ht, hu, hrest, hbyte⟩
  · obtain ⟨t, u, ht, hu, hrest, hbyte⟩ := steps_bankWrite_rdRomx (by omega) lo hi hp
    rw [State.afterBankWrite_romb1_translateRom rest v hbanked ha ha' lo] at hbyte
    exact ⟨t, u, ht, hu, hrest, hbyte⟩
  · obtain ⟨t, u, ht, hu, hrest, hbyte⟩ := steps_bankWrite_rdCram (by omega) lo hi hp
    obtain ⟨hgate, hcell⟩ := State.afterBankWrite_ramb rest v hbanked ha ha' (b := b)
    rw [hgate, if_pos hacc, hcell] at hbyte
    exact ⟨t, u, ht, hu, hrest, hbyte⟩
  · obtain ⟨t, u, ht, hu, hrest, hbyte⟩ := steps_bankWrite_rdCram (by omega) lo hi hp
    obtain ⟨hgate, hcell⟩ := State.afterBankWrite_ramg rest v hbanked ha (b := b)
    rw [hgate, hcell] at hbyte
    refine ⟨t, u, ht, hu, hrest, ?_, ?_, fun hset hclear => ?_⟩
    · rintro rfl hbanks
      rw [ramGate_set, Bool.true_and, if_pos (decide_eq_true hbanks)] at hbyte
      exact hbyte
    · rintro rfl
      rw [ramGate_clear, Bool.false_and, if_neg Bool.false_ne_true] at hbyte
      exact hbyte
    · rw [ramGate_other s.ramEnable hset hclear, ← State.accessible] at hbyte
      exact hbyte
  · obtain ⟨t, u, ht, hu, hrest, -, hcells⟩ := steps_bankWrite_wrCram (by omega) lo hi hp
    obtain ⟨hgate, hcell⟩ := State.afterBankWrite_ramb rest v hbanked ha ha' (b := b)
    simp only [hgate, hacc, hcell, true_and] at hcells
    exact ⟨t, u, ht, hu, hrest, hcells⟩
  · obtain ⟨t, u, ht, hu, hrest, hdrop, hcells⟩ := steps_bankWrite_wrCram (by omega) lo hi hp
    obtain ⟨hgate, hcell⟩ := State.afterBankWrite_ramg rest v hbanked ha (b := b)
    rw [hgate] at hdrop hcells
    rw [hcell] at hcells
    refine ⟨t, u, ht, hu, hrest, ?_, ?_, fun hset hclear => ?_⟩
    · rintro rfl hbanks
      rw [ramGate_set, Bool.true_and, decide_eq_true hbanks] at hcells
      simpa only [true_and] using hcells
    · rintro rfl
      exact hdrop (by rw [ramGate_clear, Bool.false_and])
    · rwa [ramGate_other s.ramEnable hset hclear, ← State.accessible] at hcells

end Sys2Proof.Machine
end

section
/-! PROOFS. The output `rdata` (00_scope.md R8) and RD.MMIO (42_mmio_table.md R195): a READ answers a byte, from a handler,
a cell or the fill byte; a WRITE answers none. -/

namespace Sys2Proof.Machine

/-- Settles O43: with a handler its byte is passed on, with none the fill byte; neither touches another field of the
block. -/
theorem rdMmioCallsTheHandlerOrFills : Obligations.RdMmioCallsTheHandlerOrFills :=
  fun s a _ => ⟨mmio_block, fun lo => ⟨decodeRead_mmio lo, fun _ hg => exec_rdMmio_handled s a hg,
    fun hnone => exec_rdMmio_unmapped s a hnone⟩⟩

/-- Every READ ends in `State.answer` or `State.callRead`; no WRITE reaches the output after `State.start` clears it. -/
theorem exec_rdata (i : Instr) (s : State) : ∃ t, exec i s = .next t ∧
    (i.intent = .read → ∃ b, t.rdata = some b) ∧ (i.intent = .write → t.rdata = none) := by
  cases i with
  | rdRom0 a | rdRomx a | rdVram a | rdCram a | rdWram a | rdEcho a | rdOam a | rdUnus a =>
    exact ⟨_, rfl, fun _ => ⟨_, rfl⟩, nofun⟩
  | rdMmio a =>
    cases hg : s.handlerAt a with
    | some g => exact ⟨_, exec_rdMmio_handled s a hg, fun _ => ⟨_, rfl⟩, nofun⟩
    | none => exact ⟨_, exec_rdMmio_unmapped s a hg, fun _ => ⟨_, rfl⟩, nofun⟩
  | wrRamg a d => exact ⟨_, rfl, nofun, fun _ => congrArg State.rdata (s.start.writeRamGate_frame d)⟩
  | wrRomb0 a d => exact ⟨_, rfl, nofun, fun _ => congrArg State.rdata (s.start.writeRomBankLow_frame d)⟩
  | wrRomb1 a d => exact ⟨_, rfl, nofun, fun _ => congrArg State.rdata (s.start.writeRomBankHigh_frame d)⟩
  | wrRamb a d => exact ⟨_, rfl, nofun, fun _ => congrArg State.rdata (s.start.writeRamBank_frame d)⟩
  | wrRsv6 a d | wrVram a d | wrWram a d | wrEcho a d | wrOam a d | wrUnus a d => exact ⟨_, rfl, nofun, fun _ => rfl⟩
  | wrCram a d =>
    cases hacc : s.accessible with
    | true => exact ⟨_, exec_wrCram_accessible s a d hacc, nofun, fun _ => rfl⟩
    | false => exact ⟨_, exec_wrCram_inaccessible s a d hacc, nofun, fun _ => rfl⟩
  | wrMmio a d =>
    cases hg : s.handlerAt a with
    | some g => exact ⟨_, exec_wrMmio_handled s a d hg, nofun, fun _ => rfl⟩
    | none => exact ⟨_, exec_wrMmio_unmapped s a d hg, nofun, fun _ => rfl⟩

/-- Settles O47: `exec_rdata`, with the latch from `exec_frame`. -/
theorem writeLeavesNoReadData : Obligations.WriteLeavesNoReadData := by
  intro i s
  obtain ⟨t, h, hrdata⟩ := exec_rdata i s
  obtain ⟨-, -, -, hphase, -⟩ := exec_frame h
  exact ⟨t, h, hphase, hrdata⟩

end Sys2Proof.Machine
end

section
/-! PROOFS. LOAD (43_facade.md R214 to R218): the padding as a number of banks, the two header tables, and the outcome by
the two header bytes. -/

namespace Sys2Proof.Machine

/-! ### Padding (R215) -/

theorem romBanksOf_of_le {l : Nat} (h : l ≤ 0x4000) : romBanksOf l = 1 := by
  unfold romBanksOf paddedLength
  omega

theorem romBanksOf_lt {l : Nat} (h : 0x4000 < l) : romBanksOf l * 0x4000 < l + 0x4000 := by
  unfold romBanksOf paddedLength
  omega

/-- Settles O54: the loaded machine has `romBanksOf` banks and the padded image as its `ROM`. -/
theorem loadPadsTheImage : Obligations.LoadPadsTheImage := by
  intro image init s h
  obtain ⟨bytes, v, r, hbytes, -, rfl⟩ := load_cases h
  obtain rfl := Option.some.inj hbytes
  refine ⟨romBanksOf_pos _, le_romBanksOf _, romBanksOf_of_le, romBanksOf_lt, fun i b hb => ?_, fun i hi => ?_⟩
  · rw [State.atReset_rom, padImage_read, hb, Option.getD_some]
  · rw [State.atReset_rom, padImage_read, List.getElem?_eq_none hi, Option.getD_none]

/-! ### The reset values (R36) -/

/-- Settles O56: a loaded machine is `State.atReset` of its configuration. -/
theorem loadLeavesTheResetValues : Obligations.LoadLeavesTheResetValues := by
  intro image init s h
  obtain ⟨bytes, v, r, -, -, rfl⟩ := load_cases h
  have hgate := State.atReset_ramEnable_iff ⟨v, romBanksOf bytes.length, r⟩ (padImage bytes) init
  refine ⟨rfl, rfl, fun hbanked => ?_, hgate.2, rfl, rfl, rfl, rfl, fun _ => rfl, rfl⟩
  rw [State.atReset_cfg] at hbanked
  exact Bool.eq_false_iff.2 fun hon => nomatch hbanked.symm.trans (hgate.1 hon)

/-! ### The header's tables (R217) -/

/-- The type bytes of variant `NONE`. -/
def noneTypes : List Byte := [0x00#8, 0x08#8, 0x09#8]

/-- The type bytes of variant `BANKED`. -/
def bankedTypes : List Byte := [0x19#8, 0x1A#8, 0x1B#8]

/-- The type bytes of a cartridge with RAM. -/
def ramTypes : List Byte := [0x08#8, 0x09#8, 0x1A#8, 0x1B#8]

/-- The RAM-size bytes and their banks. -/
def ramSizes : List (Byte × Nat) := [(0x00#8, 0), (0x02#8, 1), (0x03#8, 4), (0x04#8, 16), (0x05#8, 8)]

theorem cartridgeType_known : ∀ type ∈ noneTypes ++ bankedTypes,
    cartridgeType type = some (if type ∈ noneTypes then .none else .banked, decide (type ∈ ramTypes)) := by
  decide

theorem cartridgeType_unknown {type : Byte} (h : type ∉ noneTypes ++ bankedTypes) : cartridgeType type = none := by
  simp only [noneTypes, bankedTypes, List.cons_append, List.nil_append, List.mem_cons, List.not_mem_nil, not_or] at h
  obtain ⟨h00, h08, h09, h19, h1A, h1B, -⟩ := h
  rw [cartridgeType, if_neg h00, if_neg h08, if_neg h09, if_neg h19, if_neg h1A, if_neg h1B]

theorem ramSizeBanks_known : ∀ e ∈ ramSizes, ramSizeBanks e.1 = some e.2 := by
  decide

theorem ramSizeBanks_unknown {ramsize : Byte} (h : ramsize ∉ ramSizes.map Prod.fst) : ramSizeBanks ramsize = none := by
  simp only [ramSizes, List.map_cons, List.map_nil, List.mem_cons, List.not_mem_nil, not_or] at h
  obtain ⟨h00, h02, h03, h04, h05, -⟩ := h
  rw [ramSizeBanks, if_neg h00, if_neg h02, if_neg h03, if_neg h04, if_neg h05]

theorem ramTypes_subset : ∀ type ∈ ramTypes, type ∈ noneTypes ++ bankedTypes := by
  decide

/-! ### The header's outcome (R218) -/

section
variable {rom : Memory} {v : Variant} {hasRam : Bool} {banks : Nat}

theorem readHeader_unknownType (h : cartridgeType (rom.read 0x0147) = none) : readHeader rom = .error .unknownType := by
  simp only [readHeader, h]

theorem readHeader_unknownRamSize (h : cartridgeType (rom.read 0x0147) = some (v, hasRam))
    (hsize : ramSizeBanks (rom.read 0x0149) = none) : readHeader rom = .error .unknownRamSize := by
  simp only [readHeader, h, hsize]

theorem readHeader_ramRequired (h : cartridgeType (rom.read 0x0147) = some (v, true))
    (hsize : ramSizeBanks (rom.read 0x0149) = some 0) : readHeader rom = .error .ramRequired := by
  simp only [readHeader, h, hsize, if_true]

theorem readHeader_ok (h : cartridgeType (rom.read 0x0147) = some (v, hasRam))
    (hsize : ramSizeBanks (rom.read 0x0149) = some banks) (hram : hasRam = true → banks ≠ 0) :
    readHeader rom = .ok (v, if hasRam = true then banks else 0) := by
  cases hasRam with
  | false => simp only [readHeader, h, hsize, Bool.false_eq_true, if_false]
  | true => simp only [readHeader, h, hsize, hram rfl, if_true, if_false]

theorem load_invalidHeader {image : List Byte} {why : HeaderProblem} (init : InitContents)
    (h : readHeader (padImage image) = .error why) : load (some image) init = .error (.invalidHeader why) := by
  simp only [load, h]

theorem load_ok {image : List Byte} (init : InitContents) (h : readHeader (padImage image) = .ok (v, banks)) :
    load (some image) init = .ok (State.atReset ⟨v, romBanksOf image.length, banks⟩ (padImage image) init) := by
  simp only [load, h]

end

/-- Settles O55: the two tables at the header's bytes decide which of `readHeader`'s cases LOAD meets. -/
theorem loadReadsTheHeader : Obligations.LoadReadsTheHeader := by
  intro image init
  refine ⟨rfl, fun htype => ?_, fun htype hsize => ?_, fun htype hsize => ?_, fun n htype hsize hram => ?_⟩
  · exact load_invalidHeader init (readHeader_unknownType (cartridgeType_unknown htype))
  · exact load_invalidHeader init (readHeader_unknownRamSize (cartridgeType_known _ htype) (ramSizeBanks_unknown hsize))
  · have hknown := cartridgeType_known _ (ramTypes_subset _ htype)
    rw [decide_eq_true (show _ ∈ ramTypes from htype)] at hknown
    exact load_invalidHeader init (readHeader_ramRequired hknown (by rw [hsize]; rfl))
  · have hknown := cartridgeType_known _ htype
    have hheader := readHeader_ok hknown (ramSizeBanks_known _ hsize) fun h => hram (of_decide_eq_true h)
    rw [load_ok init hheader]
    simp only [decide_eq_true_eq]
    rfl

end Sys2Proof.Machine
end

section
/-! PROOFS. REGISTER and the boot order (42_mmio_table.md R191, R192, 70_reset_and_hazards.md R261): a call's error or the
table it leaves, by the phase, the window and the lowest address that already has a handler; then a run of calls. -/

namespace Sys2Proof.Machine

/-! ### The addresses of a range -/

theorem addressRange_sorted (a b : Addr) : (addressRange a b).Pairwise (fun x y => x.toNat < y.toNat) := by
  have hb := b.isLt
  rw [addressRange, List.pairwise_map]
  refine List.pairwise_lt_range.imp_of_mem fun {j k} hj hk hlt => ?_
  rw [List.mem_range] at hj hk
  rw [BitVec.toNat_ofNat, BitVec.toNat_ofNat, Nat.mod_eq_of_lt (by omega), Nat.mod_eq_of_lt (by omega)]
  omega

@[simp] theorem addressRange_self (a : Addr) : addressRange a a = [a] := by
  simp [addressRange]

/-- In a list of rising addresses the first that satisfies a predicate is the least. -/
theorem find?_eq_least {l : List Addr} {p : Addr → Bool} {x : Addr} (hsorted : l.Pairwise (fun y z => y.toNat < z.toNat))
    (hx : x ∈ l) (hp : p x = true) (hleast : ∀ y ∈ l, y.toNat < x.toNat → p y = false) : l.find? p = some x := by
  induction l with
  | nil => exact nomatch hx
  | cons y ys ih =>
    obtain ⟨hy, hys⟩ := List.pairwise_cons.1 hsorted
    obtain rfl | hx := List.mem_cons.1 hx
    · exact List.find?_cons_of_pos hp
    · rw [List.find?_cons_of_neg (Bool.eq_false_iff.1 (hleast y List.mem_cons_self (hy x hx)))]
      exact ih hys hx fun z hz => hleast z (List.mem_cons_of_mem y hz)

/-! ### REGISTER of a range (R192, R233) -/

section
variable {s : State} {a b : Addr} (h : Handler)

theorem State.registerRange_late (hphase : s.phase = .run) :
    s.registerRange a b h = .error (.lateRegistration a) := by
  rw [State.registerRange, if_pos (by rw [hphase]; nofun)]

theorem State.registerRange_outOfRange (hphase : s.phase = .assembly) (hlow : a.toNat < 0xFF00) :
    s.registerRange a b h = .error (.addressOutOfRange a) := by
  rw [State.registerRange, if_neg (not_not.2 hphase), if_pos hlow]

theorem State.registerRange_duplicate {x : Addr} (hphase : s.phase = .assembly) (hlo : 0xFF00 ≤ a.toNat)
    (hx : x ∈ addressRange a b) (hhandled : (s.handlerAt x).isSome = true)
    (hleast : ∀ y ∈ addressRange a b, y.toNat < x.toNat → s.handlerAt y = none) :
    s.registerRange a b h = .error (.duplicateHandler x) := by
  have hfind : (addressRange a b).find? (fun y => (s.handlerAt y).isSome) = some x :=
    find?_eq_least (addressRange_sorted a b) hx hhandled fun y hy hlt => by rw [hleast y hy hlt]; rfl
  rw [State.registerRange, if_neg (not_not.2 hphase), if_neg (Nat.not_lt_of_le hlo)]
  simp only [hfind]

theorem State.registerRange_ok (hphase : s.phase = .assembly) (hlo : 0xFF00 ≤ a.toNat)
    (hfree : ∀ x ∈ addressRange a b, s.handlerAt x = none) :
    s.registerRange a b h = .ok { s with ht := registerAll s.ht (addressRange a b) h } := by
  have hfind : (addressRange a b).find? (fun y => (s.handlerAt y).isSome) = none :=
    List.find?_eq_none.2 fun x hx => by rw [hfree x hx]; nofun
  rw [State.registerRange, if_neg (not_not.2 hphase), if_neg (Nat.not_lt_of_le hlo)]
  simp only [hfind]

/-- The table after a range is registered. -/
theorem State.handlerAt_registerAll (s : State) (a b y : Addr) :
    ({ s with ht := registerAll s.ht (addressRange a b) h } : State).handlerAt y =
      if a.toNat ≤ y.toNat ∧ y.toNat ≤ b.toNat then some h else s.handlerAt y := by
  have hmem : (∃ x ∈ addressRange a b, x.toNat = y.toNat) ↔ a.toNat ≤ y.toNat ∧ y.toNat ≤ b.toNat := by
    rw [← mem_addressRange]
    exact ⟨fun ⟨x, hx, heq⟩ => BitVec.eq_of_toNat_eq heq ▸ hx, fun hy => ⟨y, hy, rfl⟩⟩
  rw [State.handlerAt, sparseFind_registerAll]
  simp only [hmem]
  rfl

theorem State.registerRange_self (s : State) (a : Addr) : s.registerRange a a h = s.register a h := by
  rw [State.registerRange, State.register, addressRange_self]
  cases hg : s.handlerAt a <;> simp [hg, registerAll]

end

/-- Settles O58: one lemma per outcome; the range's addresses rise, so the first found is the lowest. -/
theorem registerRangeIsAllOrNothing : Obligations.RegisterRangeIsAllOrNothing := by
  intro s a b h _
  refine ⟨State.registerRange_late h, State.registerRange_outOfRange h, fun x g hphase hlo hax hxb hg hleast => ?_,
    fun hphase hlo hfree => ?_, s.registerRange_self h a⟩
  · exact State.registerRange_duplicate h hphase hlo (mem_addressRange.2 ⟨hax, hxb⟩) (by rw [hg]; rfl)
      fun y hy => hleast y (mem_addressRange.1 hy).1
  · refine ⟨_, State.registerRange_ok h hphase hlo fun x hx => ?_, rfl, s.handlerAt_registerAll h a b⟩
    obtain ⟨hax, hxb⟩ := mem_addressRange.1 hx
    exact hfree x hax hxb

/-- Settles O57: the one-address form is the range form, whose only address is `a`. -/
theorem registerSetsOneEntryOrFails : Obligations.RegisterSetsOneEntryOrFails := by
  intro s a h
  rw [← s.registerRange_self h a]
  refine ⟨State.registerRange_late h, State.registerRange_outOfRange h, fun g hphase hlo hg => ?_,
    fun hphase hlo hfree => ?_⟩
  · refine State.registerRange_duplicate h hphase hlo (by simp) (by rw [hg]; rfl) fun y hy hlt => ?_
    obtain rfl : y = a := by simpa using hy
    exact absurd hlt (Nat.lt_irrefl _)
  · refine ⟨_, State.registerRange_ok h hphase hlo (by simpa using hfree), rfl, fun b => ?_⟩
    rw [s.handlerAt_registerAll h a a b]
    have honly : a.toNat ≤ b.toNat ∧ b.toNat ≤ a.toNat ↔ b = a := by
      rw [← BitVec.toNat_inj]
      omega
    simp only [honly]

/-! ### A run of calls (R261) -/

/-- The call gives a handler to the address. -/
abbrev Registration.covers (r : Registration) (y : Addr) : Prop := r.first.toNat ≤ y.toNat ∧ y.toNat ≤ r.last.toNat

theorem registerRange_handlerAt {s u : State} {r : Registration}
    (e : s.registerRange r.first r.last r.handler = .ok u) (y : Addr) (g : Handler) :
    u.handlerAt y = some g ↔ s.handlerAt y = some g ∨ (r.covers y ∧ r.handler = g) := by
  obtain ⟨-, -, hfree, rfl⟩ := registerRange_cases e
  rw [State.handlerAt_registerAll]
  by_cases hy : r.covers y
  · rw [if_pos hy, hfree y (mem_addressRange.2 hy), Option.some_inj]
    exact ⟨fun hg => .inr ⟨hy, hg⟩, fun hg => (hg.resolve_left nofun).2⟩
  · rw [if_neg hy]
    exact ⟨.inl, fun hg => hg.resolve_right fun hcov => hy hcov.1⟩

/-- Calls that all succeed change the table only, and add to it the handlers of the addresses they cover. -/
theorem registerEach_ok {regs : List Registration} {s t : State} (e : registerEach regs s = .ok t) :
    t = { s with ht := t.ht } ∧ ∀ (y : Addr) (g : Handler),
      t.handlerAt y = some g ↔ s.handlerAt y = some g ∨ ∃ r ∈ regs, r.covers y ∧ r.handler = g := by
  induction regs generalizing s with
  | nil =>
    cases e
    exact ⟨rfl, fun y g => by simp⟩
  | cons r rest ih =>
    cases hr : s.registerRange r.first r.last r.handler with
    | error err => exact nomatch (registerEach_cons_error hr).symm.trans e
    | ok u =>
      obtain ⟨htable, hhandlers⟩ := ih ((registerEach_cons_ok hr).symm.trans e)
      obtain ⟨-, -, -, hu⟩ := registerRange_cases hr
      refine ⟨?_, fun y g => ?_⟩
      · rw [htable, hu]
      · rw [hhandlers, registerRange_handlerAt hr, or_assoc, List.exists_mem_cons_iff]

/-- Calls in the window that cover free addresses, none twice, all succeed. -/
theorem registerEach_succeeds {regs : List Registration} {s : State} (hphase : s.phase = .assembly)
    (hwindow : ∀ r ∈ regs, 0xFF00 ≤ r.first.toNat)
    (hapart : regs.Pairwise (fun r q => r.last.toNat < q.first.toNat ∨ q.last.toNat < r.first.toNat))
    (hfree : ∀ r ∈ regs, ∀ y, r.covers y → s.handlerAt y = none) : ∃ t, registerEach regs s = .ok t := by
  induction regs generalizing s with
  | nil => exact ⟨s, rfl⟩
  | cons r rest ih =>
    obtain ⟨hlo, hwindow⟩ := List.forall_mem_cons.1 hwindow
    obtain ⟨hr, hapart⟩ := List.pairwise_cons.1 hapart
    obtain ⟨hfree_r, hfree⟩ := List.forall_mem_cons.1 hfree
    rw [registerEach_cons_ok (State.registerRange_ok r.handler hphase hlo fun x hx => hfree_r x (mem_addressRange.1 hx))]
    refine ih hphase hwindow hapart fun q hq y hcovers => ?_
    have hnot : ¬r.covers y := fun hy => by
      have := hr q hq
      omega
    rw [State.handlerAt_registerAll, if_neg hnot]
    exact hfree q hq y hcovers

/-! ### Boot (R261) -/

section
variable {image : Option (List Byte)} {init : InitContents} {regs : List Registration} {s t : State}

theorem boot_load_error {e : LoadError} (h : load image init = .error e) : boot image init regs = .error (.load e) := by
  simp only [boot, h]

theorem boot_register_error {e : ConfigError} (hload : load image init = .ok s) (h : registerEach regs s = .error e) :
    boot image init regs = .error (.config e) := by
  simp only [boot, hload, h]

theorem boot_of_registerEach (hload : load image init = .ok s) (h : registerEach regs s = .ok t) :
    boot image init regs = .ok t := by
  simp only [boot, hload, h]

/-- A boot that succeeds is LOAD and a run of calls, both successful. -/
theorem boot_cases (h : boot image init regs = .ok t) : ∃ s, load image init = .ok s ∧ registerEach regs s = .ok t := by
  cases hload : load image init with
  | error e => exact nomatch (boot_load_error hload).symm.trans h
  | ok s =>
    refine ⟨s, rfl, ?_⟩
    cases hregs : registerEach regs s with
    | error e => exact nomatch (boot_register_error hload hregs).symm.trans h
    | ok u => rw [Except.ok.inj ((boot_of_registerEach hload hregs).symm.trans h)]

end

/-- Settles O60: LOAD's error ends the boot, and so does the first error of the run of calls; a loaded machine has no
handlers, so the calls add all there are. -/
theorem bootLeavesTheLoadedMachineWithItsHandlers : Obligations.BootLeavesTheLoadedMachineWithItsHandlers := by
  intro image init regs _
  refine ⟨fun e => boot_load_error, fun before r after u e hregs hboot hr => ?_, fun s t hload hboot => ?_,
    fun s hload hwindow hapart => ?_, rfl⟩
  · obtain ⟨s, hload, hbefore⟩ := boot_cases hboot
    refine boot_register_error hload ?_
    rw [hregs, registerEach_append hbefore, registerEach_cons_error hr]
  · obtain ⟨s', hload', hregs⟩ := boot_cases hboot
    obtain rfl := Except.ok.inj (hload'.symm.trans hload)
    obtain ⟨-, -, -, -, -, -, -, -, hnone, hphase⟩ := loadLeavesTheResetValues image init s' hload
    obtain ⟨htable, hhandlers⟩ := registerEach_ok hregs
    refine ⟨htable, ?_, fun y g => ?_⟩
    · rw [htable]
      exact hphase
    · rw [hhandlers, hnone y]
      simp only [reduceCtorEq, false_or, Registration.covers, and_assoc]
  · obtain ⟨-, -, -, -, -, -, -, -, hnone, hphase⟩ := loadLeavesTheResetValues image init s hload
    obtain ⟨t, ht⟩ := registerEach_succeeds hphase hwindow hapart fun _ _ y _ => hnone y
    exact ⟨t, boot_of_registerEach hload ht⟩

end Sys2Proof.Machine
end
